-- ==== Sys2Proof/Word.lean ====
section
/-! DEFINITION. Bytes, the two build widths (00_scope.md R2) and the W-bit word of an instance (R4). -/

namespace Sys2Proof

/-- One byte of a stream (00_scope.md R7). -/
abbrev Byte := BitVec 8

/-- The build parameter `W` of an instance (00_scope.md R1, R2): `XXH-W32` or `XXH-W64`. -/
inductive Width where
  | w32
  | w64
deriving DecidableEq, Repr

/-- `W` itself, in bits (00_scope.md R2, R3). -/
abbrev Width.bits : Width → Nat
  | .w32 => 32
  | .w64 => 64

/-- A W-bit unsigned value: a seed, a lane, an accumulator or a digest (00_scope.md R4).
`+`, `-` and `*` of `BitVec` are the exact result modulo 2^W, and `>>>` is the logical shift, as R4 asks. -/
abbrev Word (w : Width) := BitVec w.bits

end Sys2Proof
end

