-- ==== Sys2Proof/Config.lean ====
section
/-! DEFINITION. What a build fixes: the width of the instance that `State.reset` describes, and the length bound. -/

namespace Sys2Proof

/-- The width of the instance whose reset state is `State.reset`.
DESIGN CHOICE (log entry 1): the spec describes both builds and the host's interface names one reset state.
`State.resetOf` gives either build. -/
def Config.resetWidth : Width := .w64

/-- The largest length of a data operand and of a stream, `2^64 - 1` (20_memory.md R31, 10_state.md R14). -/
def Config.maxLength : Nat := 2 ^ 64 - 1

end Sys2Proof
end

