-- ==== Sys2Proof/Syntax.lean ====
section
/-! DEFINITION. The commands of the opcode map (30_encoding.md R57), each with only the operands its opcode uses (R53). -/

namespace Sys2Proof

/-- One constructor per row of spec/opcode_table.json.
A seed is held at the width of the widest `SEED_IN` port; `Instr.wf` says that it fits the instance's own (log entry 7). -/
inductive Instr where
  /-- `INIT`: create an accumulator from the seed (42_accumulator.md R131). -/
  | init (seed : BitVec 64)
  /-- `INGEST`: append the data to the stream (42_accumulator.md R132). -/
  | ingest (data : List Byte)
  /-- `DIGEST`: the digest of the stream so far (42_accumulator.md R133). -/
  | digest
  /-- `ONESHOT`: the digest of the data alone (42_accumulator.md R134). -/
  | oneshot (seed : BitVec 64) (data : List Byte)
  /-- `RDSTATUS`: read the status register (42_accumulator.md R135). -/
  | rdstatus
deriving DecidableEq, Repr

end Sys2Proof
end

