-- ==== Sys2Proof/WellFormed.lean ====
section
/-! DEFINITION. When a command can be presented on the ports of an instance: the operand bounds of 30_encoding.md R53. -/

namespace Sys2Proof

/-- The seed fits `SEED_IN`, which is W bits wide (30_encoding.md R53, R61). -/
def seedFits (w : Width) (seed : BitVec 64) : Bool := decide (seed.toNat < 2 ^ w.bits)

/-- The data operand is at most `2^64 - 1` bytes long (20_memory.md R31, 30_encoding.md R53). -/
def dataFits (data : List Byte) : Bool := decide (data.length ≤ Config.maxLength)

/-- The operand bounds of 30_encoding.md R53 for an instance of width `w`. -/
def Instr.wf (w : Width) : Instr → Bool
  | .init seed => seedFits w seed
  | .ingest data => dataFits data
  | .digest => true
  | .oneshot seed data => seedFits w seed && dataFits data
  | .rdstatus => true

end Sys2Proof
end

