-- ==== Sys2Proof/Decode.lean ====
section
/-! DEFINITION. The command transaction (30_encoding.md R50, R53, R63), the decoder, total over 32-bit command words
(R51, R52, R57 to R59), and the encoder written from the same opcode map. -/

namespace Sys2Proof

/-- One transaction on the ports of an instance: the command word and the operand ports (30_encoding.md R50, R53).
It is also a row of the listing form `CMD | SEED_IN | DATA_IN` (R63).
DESIGN CHOICE (log entry 9): R50 counts three operand ports and R53 names two, which are the ones held here. -/
structure Command (w : Width) where
  cmd    : BitVec 32
  seedIn : Word w
  dataIn : List Byte
deriving DecidableEq, Repr

/-- Why a command word is illegal (30_encoding.md R58): a reserved bit is set, or the opcode is not assigned. -/
inductive Illegal where
  /-- `CMD[31:4] ≠ 0` (R59: reserved bits are checked, not ignored). -/
  | reservedBits
  /-- `CMD[31:4] = 0` and `CMD[3:0]` is 0x0 or 0x6 to 0xF. -/
  | reservedOpcode
deriving DecidableEq, Repr

/-- `OP = CMD[3:0]` (30_encoding.md R51). -/
def opField (cmd : BitVec 32) : BitVec 4 := cmd.extractLsb' 0 4

/-- `RSV = CMD[31:4]` (30_encoding.md R51). -/
def rsvField (cmd : BitVec 32) : BitVec 28 := cmd.extractLsb' 4 28

/-- The command a transaction stands for, or why its word is illegal (30_encoding.md R52, R57, R58).
The ports that the opcode does not use are ignored (R53). -/
def decode {w : Width} (c : Command w) : Except Illegal Instr :=
  if rsvField c.cmd ≠ 0 then .error .reservedBits
  else match (opField c.cmd).toNat with
    | 1 => .ok (.init (c.seedIn.setWidth 64))
    | 2 => .ok (.ingest c.dataIn)
    | 3 => .ok .digest
    | 4 => .ok (.oneshot (c.seedIn.setWidth 64) c.dataIn)
    | 5 => .ok .rdstatus
    | _ => .error .reservedOpcode

/-- The command word of each command (30_encoding.md R57). -/
def Instr.word : Instr → BitVec 32
  | .init _ => 0x00000001#32
  | .ingest _ => 0x00000002#32
  | .digest => 0x00000003#32
  | .oneshot _ _ => 0x00000004#32
  | .rdstatus => 0x00000005#32

/-- The transaction that presents a command (30_encoding.md R57, R63).
DESIGN CHOICE (log entry 10): the ports that the opcode does not use, which R53 ignores, are at zero and empty. -/
def encode (w : Width) (i : Instr) : Command w :=
  match i with
  | .init seed => ⟨i.word, seed.setWidth w.bits, []⟩
  | .ingest data => ⟨i.word, 0, data⟩
  | .digest => ⟨i.word, 0, []⟩
  | .oneshot seed data => ⟨i.word, seed.setWidth w.bits, data⟩
  | .rdstatus => ⟨i.word, 0, []⟩

/-- A command word as spec/opcode_table.json numbers its bits, with the bits from `nbits` up at zero
(30_encoding.md R60: a command is always one 32-bit word). -/
def tableWord (nbits w : Nat) : BitVec 32 := BitVec.ofNat 32 (w % 2 ^ nbits)

/-- The transaction of a bare command word: the operand ports at zero and empty (DESIGN CHOICE, log entry 4). -/
def wordCommand (width : Width) (nbits w : Nat) : Command width := ⟨tableWord nbits w, 0, []⟩

/-- What the decoder reads from a table row's bits: none for an illegal word, and none for a row longer than the
one command length (30_encoding.md R60). -/
def decodeTableWord (nbits w : Nat) : Option Instr :=
  if 32 < nbits then none else (decode (wordCommand Config.resetWidth nbits w)).toOption

end Sys2Proof
end

