-- ==== Sys2Proof/Machine/State.lean ====
section
/-! DEFINITION. The state of one engine instance (10_state.md section 1) with its command and response ports
(30_encoding.md R50 to R56), and the state after reset (70_reset_and_hazards.md R191). -/

namespace Sys2Proof.Machine

/-- The lane set `V[0..3]`: exactly four W-bit registers (10_state.md R10, R23). -/
structure Lanes (w : Width) where
  v0 : Word w
  v1 : Word w
  v2 : Word w
  v3 : Word w
deriving DecidableEq, Repr

/-- What `FCODE` can hold (60_exceptions.md R160). Codes 5 to 7 are never written (93_implementation_defined.md U3). -/
inductive FaultCode where
  | none
  | illegal
  | noInit
  | lenOvf
  | invariant
deriving DecidableEq, Repr

/-- The engine state of an instance of width `w` (10_state.md section 1).
`buf` is the list of the meaningful bytes `BUF[0..BUFLEN)`, oldest first, as R12 and 20_memory.md R45 allow (log entry 3). -/
structure Engine (w : Width) where
  /-- `V[0..3]` (R10). -/
  lanes : Lanes w
  /-- `SEED` (R11). -/
  seed  : Word w
  /-- `BUF[0..BUFLEN)` (R12). -/
  buf   : List Byte
  /-- `TOTAL`, 64 bits (R14). -/
  total : BitVec 64
  /-- `VALID` (R16). -/
  valid : Bool
  /-- `FAULT`, sticky (R17). -/
  fault : Bool
  /-- `FCODE` (R18). -/
  fcode : FaultCode
deriving DecidableEq, Repr

/-- `RSTAT` (30_encoding.md R55). -/
inductive RStat where
  | done
  | value
  | faulted
  | ignored
deriving DecidableEq, Repr

/-- A response `(RSTAT, RVALUE)` (30_encoding.md R54 to R56). -/
structure Response (w : Width) where
  rstat  : RStat
  rvalue : Word w
deriving DecidableEq, Repr

/-- What the outside can do to an instance: present a command (30_encoding.md R50), or assert reset, between commands
or while one is in progress (70_reset_and_hazards.md R190). -/
inductive HostEvent (w : Width) where
  | command (c : Command w)
  | reset
  /-- Reset asserted while the command is in progress: the command is abandoned (R190). -/
  | resetDuring (c : Command w)
deriving DecidableEq, Repr

/-- The boundary with the host: the events not yet taken, in issue order (20_memory.md R37), and the responses
delivered, oldest first (70_reset_and_hazards.md R198). Neither is engine state (10_state.md R22, R26; log entry 4). -/
structure Port (w : Width) where
  pending   : List (HostEvent w)
  responses : List (Response w)
deriving DecidableEq, Repr

/-- One instance: its hardwired width (10_state.md R20), its engine state and its ports. -/
structure State where
  width  : Width
  engine : Engine width
  port   : Port width
deriving DecidableEq, Repr

/-- Why the machine stops with a fault: never. The engine's own faults (60_exceptions.md R160) are next states in
which `FAULT` is set (R166), and nothing else in the spec stops it, so no constructor is needed. -/
inductive Fault
deriving DecidableEq, Repr

/-- Why a command has no meaning in the model. -/
inductive Refusal where
  /-- An arm of `exec` with no meaning yet, by mnemonic (safe). No arm raises it. -/
  | notModelled (mnemonic : String)
deriving DecidableEq, Repr

/-- The engine after reset (70_reset_and_hazards.md R191): `VALID`, `FAULT` and `FCODE` are 0.
DESIGN CHOICE (log entry 2): R191 gives `V`, `SEED`, `BUF`, `BUFLEN` and `TOTAL` no value; they are zero and empty
here, and no response depends on them. -/
def Engine.reset (w : Width) : Engine w where
  lanes := ⟨0, 0, 0, 0⟩
  seed := 0
  buf := []
  total := 0
  valid := false
  fault := false
  fcode := .none

/-- An instance of width `w` right after reset, with no command presented and no response delivered. -/
def State.resetOf (w : Width) : State := ⟨w, Engine.reset w, ⟨[], []⟩⟩

/-- The machine right after reset (70_reset_and_hazards.md R191), for the width of `Config.resetWidth` (log entry 1). -/
def State.reset : State := State.resetOf Config.resetWidth

end Sys2Proof.Machine
end

