-- ==== Sys2Proof/Machine/Operands.lean ====
section
/-! DEFINITION. The parameters derived from `W` (00_scope.md R3), the operand ports (30_encoding.md R53), little-endian
byte groups (00_scope.md R6, 20_memory.md R33) and the walk over a stream in groups (20_memory.md R32). -/

namespace Sys2Proof.Machine

/-- `G = W / 8`, the bytes of one lane group (00_scope.md R3). -/
def groupBytes : Width → Nat
  | .w32 => 4
  | .w64 => 8

/-- `BS = 4 · G`, the bytes of one block and the capacity of `BUF` (00_scope.md R3). -/
def blockBytes : Width → Nat
  | .w32 => 16
  | .w64 => 32

/-- `BUFLEN_BITS = log2 BS` (00_scope.md R3, 10_state.md R13). -/
def bufLenBits : Width → Nat
  | .w32 => 4
  | .w64 => 5

/-- The seed on `SEED_IN`: the W bits of the port (30_encoding.md R53; log entry 7). -/
def seedOperand (w : Width) (seed : BitVec 64) : Word w := seed.setWidth w.bits

/-- `le_n(g)`: the first byte is the least significant (00_scope.md R6). -/
def leNat : List Byte → Nat
  | [] => 0
  | b :: g => b.toNat + 256 * leNat g

/-- A group where it enters W-bit arithmetic: `le_n`, zero-extended to `W` bits (00_scope.md R6). -/
def leWord (w : Width) (g : List Byte) : Word w := BitVec.ofNat w.bits (leNat g)

/-- `k` groups of `n` bytes from the front of `T`, each folded into the accumulator in stream order, and the bytes
left over (20_memory.md R32). -/
def foldGroups {α : Type} (n : Nat) (f : α → List Byte → α) : Nat → α → List Byte → α × List Byte
  | 0, a, T => (a, T)
  | k + 1, a, T => foldGroups n f k (f a (T.take n)) (T.drop n)

/-- `while len(T) - p >= n`: as many whole groups of `n` bytes as `T` holds (41_block_tail.md R102, R103, R107).
DESIGN CHOICE (log entry 11): the position is unbounded, as the block count of R102 and the termination of
70_reset_and_hazards.md R197 need, although 00_scope.md R8 calls `p` a W-bit temporary. -/
def eachGroup {α : Type} (n : Nat) (f : α → List Byte → α) (a : α) (T : List Byte) : α × List Byte :=
  foldGroups n f (T.length / n) a T

end Sys2Proof.Machine
end

