-- ==== Sys2Proof/Machine/Mixing.lean ====
section
/-! DEFINITION. The mixing primitives and the seed initializer: the pure datapath functions of 40_mixing.md. -/

namespace Sys2Proof.Machine

/-- `rotl_W(x, r)` for `0 < r < W` (00_scope.md R5). -/
def rotl {w : Width} (x : Word w) (r : Nat) : Word w := (x <<< r) ||| (x >>> (w.bits - r))

/-- `P1` (40_mixing.md R70, R71). -/
def P1 : (w : Width) → Word w
  | .w32 => 0x9E3779B1#32
  | .w64 => 0x9E3779B185EBCA87#64

/-- `P2` (40_mixing.md R70, R71). -/
def P2 : (w : Width) → Word w
  | .w32 => 0x85EBCA77#32
  | .w64 => 0xC2B2AE3D27D4EB4F#64

/-- `P3` (40_mixing.md R70, R71). -/
def P3 : (w : Width) → Word w
  | .w32 => 0xC2B2AE3D#32
  | .w64 => 0x165667B19E3779F9#64

/-- `P4` (40_mixing.md R70, R71). -/
def P4 : (w : Width) → Word w
  | .w32 => 0x27D4EB2F#32
  | .w64 => 0x85EBCA77C2B2AE63#64

/-- `P5` (40_mixing.md R70, R71). -/
def P5 : (w : Width) → Word w
  | .w32 => 0x165667B1#32
  | .w64 => 0x27D4EB2F165667C5#64

/-- `R`, the rotation of the round function (00_scope.md R3, 40_mixing.md R72). -/
def roundRotation : Width → Nat
  | .w32 => 13
  | .w64 => 31

/-- `ROUND(lane, input)` (40_mixing.md R74). -/
def round {w : Width} (lane input : Word w) : Word w :=
  rotl (lane + input * P2 w) (roundRotation w) * P1 w

/-- The rotated lanes, summed, with the rotations 1, 7, 12 and 18 of lanes 0 to 3 (40_mixing.md R72, R76, R77). -/
def rotatedSum {w : Width} (v : Lanes w) : Word w :=
  rotl v.v0 1 + rotl v.v1 7 + rotl v.v2 12 + rotl v.v3 18

/-- `MERGE_ROUND(acc, val)`, W = 64 only (40_mixing.md R75). -/
def mergeRound (acc val : Word .w64) : Word .w64 := (acc ^^^ round 0 val) * P1 .w64 + P4 .w64

/-- `MERGE_LANES` for W = 32 (40_mixing.md R76). -/
def mergeLanes32 (v : Lanes .w32) : Word .w32 := rotatedSum v

/-- `MERGE_LANES` for W = 64: the sum first, then a merge round for lanes 0, 1, 2, 3 (40_mixing.md R77, 90_conflicts.md C1). -/
def mergeLanes64 (v : Lanes .w64) : Word .w64 :=
  mergeRound (mergeRound (mergeRound (mergeRound (rotatedSum v) v.v0) v.v1) v.v2) v.v3

/-- `MERGE_LANES` of the instance's own width (40_mixing.md R76, R77). -/
def mergeLanes : {w : Width} → Lanes w → Word w
  | .w32, v => mergeLanes32 v
  | .w64, v => mergeLanes64 v

/-- One avalanche step `h ^ (h >> n)`; the shift is logical (40_mixing.md R78, R79). -/
def xorShift {w : Width} (h : Word w) (n : Nat) : Word w := h ^^^ (h >>> n)

/-- `AVALANCHE` for W = 64 (40_mixing.md R78). -/
def avalanche64 (h : Word .w64) : Word .w64 :=
  xorShift (xorShift (xorShift h 33 * P2 .w64) 29 * P3 .w64) 32

/-- `AVALANCHE` for W = 32 (40_mixing.md R79). -/
def avalanche32 (h : Word .w32) : Word .w32 :=
  xorShift (xorShift (xorShift h 15 * P2 .w32) 13 * P3 .w32) 16

/-- `AVALANCHE` of the instance's own width (40_mixing.md R78, R79). -/
def avalanche : {w : Width} → Word w → Word w
  | .w32, h => avalanche32 h
  | .w64, h => avalanche64 h

/-- `SEED_LANES(s)` (40_mixing.md R81). -/
def seedLanes {w : Width} (s : Word w) : Lanes w := ⟨s + P1 w + P2 w, s + P2 w, s, s - P1 w⟩

/-- `SEED_SHORT(s)`, the short accumulator (40_mixing.md R82). -/
def seedShort {w : Width} (s : Word w) : Word w := s + P5 w

end Sys2Proof.Machine
end

