-- ==== Sys2Proof/Machine/BlockTail.lean ====
section
/-! DEFINITION. The block processor, the tail handler and the finalization: the pure datapath functions of
41_block_tail.md. -/

namespace Sys2Proof.Machine

/-- Group `i` of a block: `B[i·G .. (i+1)·G)`, decoded little-endian (41_block_tail.md R100). -/
def laneGroup {w : Width} (B : List Byte) (i : Nat) : Word w :=
  leWord w ((B.drop (i * groupBytes w)).take (groupBytes w))

/-- `BLOCK(v, B)`: lane `i` takes group `i` (41_block_tail.md R101). -/
def block {w : Width} (v : Lanes w) (B : List Byte) : Lanes w :=
  ⟨round v.v0 (laneGroup B 0), round v.v1 (laneGroup B 1), round v.v2 (laneGroup B 2), round v.v3 (laneGroup B 3)⟩

/-- `BLOCKS(v, S)`: every whole block in stream order, and the tail (41_block_tail.md R102). -/
def blocks {w : Width} (v : Lanes w) (S : List Byte) : Lanes w × List Byte := eachGroup (blockBytes w) block v S

/-- `T64_8` (41_block_tail.md R104). -/
def t64x8 (acc : Word .w64) (g : List Byte) : Word .w64 :=
  rotl (acc ^^^ round 0 (leWord .w64 g)) 27 * P1 .w64 + P4 .w64

/-- `T64_4` (41_block_tail.md R105). -/
def t64x4 (acc : Word .w64) (g : List Byte) : Word .w64 :=
  rotl (acc ^^^ (leWord .w64 g * P1 .w64)) 23 * P2 .w64 + P3 .w64

/-- `T64_1` (41_block_tail.md R106). -/
def t64x1 (acc : Word .w64) (b : Byte) : Word .w64 :=
  rotl (acc ^^^ (b.setWidth 64 * P5 .w64)) 11 * P1 .w64

/-- `TAIL64`: 8-byte groups while they last, at most one 4-byte group, then single bytes (41_block_tail.md R103). -/
def tail64 (acc : Word .w64) (T : List Byte) : Word .w64 :=
  let (acc, T) := eachGroup 8 t64x8 acc T
  let (acc, T) := if 4 ≤ T.length then (t64x4 acc (T.take 4), T.drop 4) else (acc, T)
  T.foldl t64x1 acc

/-- `T32_4` (41_block_tail.md R108). -/
def t32x4 (acc : Word .w32) (g : List Byte) : Word .w32 :=
  rotl (acc + leWord .w32 g * P3 .w32) 17 * P4 .w32

/-- `T32_1` (41_block_tail.md R109). -/
def t32x1 (acc : Word .w32) (b : Byte) : Word .w32 :=
  rotl (acc + b.setWidth 32 * P5 .w32) 11 * P1 .w32

/-- `TAIL32`: 4-byte groups while they last, then single bytes (41_block_tail.md R107). -/
def tail32 (acc : Word .w32) (T : List Byte) : Word .w32 :=
  let (acc, T) := eachGroup 4 t32x4 acc T
  T.foldl t32x1 acc

/-- `TAIL` of the instance's own width (41_block_tail.md R103, R107). -/
def tail : {w : Width} → Word w → List Byte → Word w
  | .w32, acc, T => tail32 acc T
  | .w64, acc, T => tail64 acc T

/-- `ADD_LEN(acc, n) = acc + (n mod 2^W)` (41_block_tail.md R111). -/
def addLen {w : Width} (acc : Word w) (n : Nat) : Word w := acc + BitVec.ofNat w.bits n

/-- Where FINALIZE starts: the merged lanes exactly when `n ≥ BS`, else the short accumulator (41_block_tail.md R113). -/
def startAcc {w : Width} (seed : Word w) (v : Lanes w) (n : Nat) : Word w :=
  if blockBytes w ≤ n then mergeLanes v else seedShort seed

/-- `FINALIZE(seed, v, n, T)` (41_block_tail.md R112; both paths add the length and avalanche, 90_conflicts.md C5). -/
def finalize {w : Width} (seed : Word w) (v : Lanes w) (n : Nat) (T : List Byte) : Word w :=
  avalanche (tail (addLen (startAcc seed v n) n) T)

end Sys2Proof.Machine
end

