-- ==== Sys2Proof/Machine/Flags.lean ====
section
/-! DEFINITION. The codes of `FCODE` and `RSTAT`, the `STATUS` view (10_state.md R19) and the derived predicates
`BUFLEN` and `LARGE`. The datapath writes no flags (40_mixing.md, 41_block_tail.md: "Flags written: none"). -/

namespace Sys2Proof.Machine

/-- The 3-bit code of `FCODE` (60_exceptions.md R160). -/
def FaultCode.code : FaultCode → BitVec 3
  | .none => 0
  | .illegal => 1
  | .noInit => 2
  | .lenOvf => 3
  | .invariant => 4

/-- The 2-bit code of `RSTAT` (30_encoding.md R55). -/
def RStat.code : RStat → BitVec 2
  | .done => 0
  | .value => 1
  | .faulted => 2
  | .ignored => 3

/-- `zext_W(FCODE)`, the value of a `FAULTED` response (30_encoding.md R56). -/
def FaultCode.word (w : Width) (c : FaultCode) : Word w := c.code.setWidth w.bits

/-- `BUFLEN`, the number of meaningful bytes in `BUF` (10_state.md R13). -/
def Engine.bufLen {w : Width} (e : Engine w) : Nat := e.buf.length

/-- `LARGE = (TOTAL ≥ BS)`, the long phase (10_state.md R15). -/
def Engine.large {w : Width} (e : Engine w) : Bool := decide (blockBytes w ≤ e.total.toNat)

/-- `WIDTH`, hardwired (10_state.md R20). -/
def widthBit : Width → BitVec 1
  | .w32 => 0
  | .w64 => 1

/-- The `STATUS` view, assembled from the bits at each read (10_state.md R19). -/
def Engine.status {w : Width} (e : Engine w) : BitVec 32 :=
  (BitVec.ofBool e.valid).setWidth 32 ||| ((BitVec.ofBool e.fault).setWidth 32 <<< 1)
    ||| (e.fcode.code.setWidth 32 <<< 2) ||| ((widthBit w).setWidth 32 <<< 5)

/-- `zext_W(STATUS)`, the value of an RDSTATUS response (30_encoding.md R56). -/
def Engine.statusWord {w : Width} (e : Engine w) : Word w := e.status.setWidth w.bits

end Sys2Proof.Machine
end

