-- ==== Sys2Proof/Machine/Ops.lean ====
section
/-! DEFINITION. The operations every command shares: the response (30_encoding.md R54), the fault entry
(60_exceptions.md R166), the dispatch's `FAULT` check (42_accumulator.md R130), and reset (70_reset_and_hazards.md R190). -/

namespace Sys2Proof.Machine

/-- The state with another engine state. -/
def State.setEngine (s : State) (e : Engine s.width) : State := { s with engine := e }

/-- The state with other host events pending. -/
def State.setPending (s : State) (evs : List (HostEvent s.width)) : State :=
  { s with port := { s.port with pending := evs } }

/-- A port on which one more response has been delivered. -/
def Port.deliver {w : Width} (p : Port w) (r : RStat) (v : Word w) : Port w :=
  { p with responses := p.responses ++ [⟨r, v⟩] }

/-- `respond(RSTAT, RVALUE)` (00_scope.md R8, 30_encoding.md R54). -/
def State.respond (s : State) (r : RStat) (v : Word s.width) : State := { s with port := s.port.deliver r v }

/-- The engine in which a fault has been recorded: only `FAULT` and `FCODE` change (60_exceptions.md R166, R167). -/
def Engine.record {w : Width} (e : Engine w) (c : FaultCode) : Engine w := { e with fault := true, fcode := c }

/-- `raise Fault(code)`: record the fault, answer `(FAULTED, zext_W(code))`, end the command (60_exceptions.md R166). -/
def raiseFault (s : State) (c : FaultCode) : State :=
  (s.setEngine (s.engine.record c)).respond .faulted (c.word s.width)

/-- While `FAULT = 1` a command is answered `(IGNORED, 0)` and has no effect (42_accumulator.md R130, 60_exceptions.md R168). -/
def unlessFaulted (s : State) (body : State → State) : State :=
  if s.engine.fault then s.respond .ignored 0 else body s

/-- An illegal word: ILLEGAL, unless the engine has faulted already (42_accumulator.md R130, 60_exceptions.md R161, R168). -/
def rejectIllegal (s : State) : State := unlessFaulted s fun s => raiseFault s .illegal

/-- The two checks of INGEST and DIGEST on the accumulator, in the order of 60_exceptions.md R165:
NOINIT (R162), then INVARIANT (R164). -/
def withAccumulator (s : State) (body : State → State) : State :=
  if s.engine.valid = false then raiseFault s .noInit
  else if blockBytes s.width ≤ s.engine.bufLen then raiseFault s .invariant
  else body s

/-- The reset input: the engine takes its reset state, whatever it held; no response is delivered
(70_reset_and_hazards.md R190, R191). -/
def assertReset (s : State) : State := s.setEngine (Engine.reset s.width)

end Sys2Proof.Machine
end

