-- ==== Sys2Proof/Machine/Accumulator.lean ====
section
/-! DEFINITION. The incremental accumulator: INIT, INGEST and DIGEST (42_accumulator.md R131 to R133). -/

namespace Sys2Proof.Machine

/-- The engine an INIT leaves. `FAULT` and `FCODE` are left alone (42_accumulator.md R131, 70_reset_and_hazards.md R190). -/
def Engine.initialise {w : Width} (e : Engine w) (seed : Word w) : Engine w :=
  { e with seed := seed, lanes := seedLanes seed, buf := [], total := 0, valid := true }

/-- `INIT` (42_accumulator.md R131). -/
def execInit (seed : BitVec 64) (s : State) : Host.Outcome State Fault Refusal :=
  .next (unlessFaulted s fun s =>
    (s.setEngine (s.engine.initialise (seedOperand s.width seed))).respond .done 0)

/-- The engine an INGEST leaves: buffered bytes first, whole blocks through the lanes, the rest buffered
(42_accumulator.md R132). -/
def Engine.append {w : Width} (e : Engine w) (D : List Byte) : Engine w :=
  { e with
    lanes := (blocks e.lanes (e.buf ++ D)).1
    buf := (blocks e.lanes (e.buf ++ D)).2
    total := e.total + BitVec.ofNat 64 D.length }

/-- `INGEST` (42_accumulator.md R132): NOINIT, INVARIANT, LENOVF, then the body. -/
def execIngest (data : List Byte) (s : State) : Host.Outcome State Fault Refusal :=
  .next (unlessFaulted s fun s => withAccumulator s fun s =>
    if Config.maxLength < s.engine.total.toNat + data.length then raiseFault s .lenOvf
    else (s.setEngine (s.engine.append data)).respond .done 0)

/-- The digest of everything ingested since INIT (42_accumulator.md R133). -/
def Engine.digest {w : Width} (e : Engine w) : Word w := finalize e.seed e.lanes e.total.toNat e.buf

/-- `DIGEST` (42_accumulator.md R133): NOINIT, INVARIANT, then the digest; no state is written. -/
def execDigest (s : State) : Host.Outcome State Fault Refusal :=
  .next (unlessFaulted s fun s => withAccumulator s fun s => s.respond .value s.engine.digest)

end Sys2Proof.Machine
end

