-- ==== Sys2Proof/Machine/Oneshot.lean ====
section
/-! DEFINITION. The oneshot engine: ONESHOT (42_accumulator.md R134). -/

namespace Sys2Proof.Machine

/-- The digest of a complete byte sequence, on working storage of its own (42_accumulator.md R134, 10_state.md R25). -/
def oneshotDigest {w : Width} (seed : Word w) (D : List Byte) : Word w :=
  finalize seed (blocks (seedLanes seed) D).1 D.length (blocks (seedLanes seed) D).2

/-- `ONESHOT` (42_accumulator.md R134): LENOVF, then the digest; no accumulator state is read or written. -/
def execOneshot (seed : BitVec 64) (data : List Byte) (s : State) : Host.Outcome State Fault Refusal :=
  .next (unlessFaulted s fun s =>
    if Config.maxLength < data.length then raiseFault s .lenOvf
    else s.respond .value (oneshotDigest (seedOperand s.width seed) data))

end Sys2Proof.Machine
end

