-- ==== Sys2Proof/Machine/Status.lean ====
section
/-! DEFINITION. The status read: RDSTATUS (42_accumulator.md R135). -/

namespace Sys2Proof.Machine

/-- `RDSTATUS` (42_accumulator.md R135): the one command performed while `FAULT = 1` (R130, 60_exceptions.md R168). -/
def execRdstatus (s : State) : Host.Outcome State Fault Refusal := .next (s.respond .value s.engine.statusWord)

end Sys2Proof.Machine
end

