-- ==== Sys2Proof/Machine/Dispatch.lean ====
section
/-! DEFINITION. One arm per command (42_accumulator.md R130). -/

namespace Sys2Proof.Machine

def exec (i : Instr) (s : State) : Host.Outcome State Fault Refusal :=
  match i with
  | .init seed => Sys2Proof.Machine.execInit seed s
  | .ingest data => Sys2Proof.Machine.execIngest data s
  | .digest => Sys2Proof.Machine.execDigest s
  | .oneshot seed data => Sys2Proof.Machine.execOneshot seed data s
  | .rdstatus => Sys2Proof.Machine.execRdstatus s

end Sys2Proof.Machine
end

