-- ==== Sys2Proof/Machine/Issue.lean ====
section
/-! DEFINITION. What the engine does with one host event (30_encoding.md R50, 42_accumulator.md R130,
70_reset_and_hazards.md R190), and how a bare command word is presented. -/

namespace Sys2Proof.Machine

/-- `EXECUTE(CMD, SEED_IN, DATA_IN)`: a legal word runs its command, any other is illegal (42_accumulator.md R130). -/
def issue (s : State) (c : Command s.width) : Host.Outcome State Fault Refusal :=
  match decode c with
  | .ok i => exec i s
  | .error _ => .next (rejectIllegal s)

/-- One host event: a command is issued, reset puts the engine in its reset state, and a command that reset
interrupts is abandoned (70_reset_and_hazards.md R190). -/
def takeEvent (s : State) (ev : HostEvent s.width) : Host.Outcome State Fault Refusal :=
  match ev with
  | .command c => issue s c
  | .reset => .next (assertReset s)
  | .resetDuring _ => .next (assertReset s)

/-- Take the oldest pending event; with none pending the engine holds its state (20_memory.md R37, 60_exceptions.md R176). -/
def takePending (s : State) : Host.Outcome State Fault Refusal :=
  match s.port.pending with
  | [] => .next s
  | ev :: rest => takeEvent (s.setPending rest) ev

/-- The state with a bare command word presented before everything pending, its operand ports at zero and empty. -/
def presentWord (s : State) (nbits w : Nat) : State :=
  s.setPending (.command (wordCommand s.width nbits w) :: s.port.pending)

end Sys2Proof.Machine
end

