-- ==== Sys2Proof/Machine/Step.lean ====
section
/-! DEFINITION. One step of the machine: one host event, as one atomic step (20_memory.md R36, R37). -/

namespace Sys2Proof.Machine

/-- One step: the oldest pending host event, or nothing when none is pending. -/
def step (s : State) : Host.Outcome State Fault Refusal := takePending s

/-- The state in which the next step runs the command word `w`: a program is loaded from outside, by the host
presenting commands (log entry 4). -/
def State.withFetchWord (s : State) (nbits w : Nat) : State := presentWord s nbits w

end Sys2Proof.Machine
end

