-- ==== Sys2Proof/Machine/Assembler.lean ====
section
/-! DEFINITION. The line syntax of 30_encoding.md R61 and the pseudo-commands of R62: what transactions one line of
text stands for. -/

namespace Sys2Proof.Machine

/-- `PAT(i, j)`: positions `i … j−1` of the stream whose byte `k` is `k mod 256` (30_encoding.md R61). -/
def pat (i j : Nat) : List Byte := (List.range' i (j - i)).map (BitVec.ofNat 8)

/-- The ASCII code of each character; none for a character outside ASCII (00_scope.md R7). -/
def asciiBytes (cs : List Char) : Option (List Byte) :=
  cs.mapM fun c => if c.toNat < 128 then some (BitVec.ofNat 8 c.toNat) else none

/-- The raw form `.cmd`: a command word with no operands (30_encoding.md R61).
DESIGN CHOICE (log entry 10): `SEED_IN` is zero and `DATA_IN` empty, also where the word's opcode uses them. -/
def rawCommand (w : Width) (word : BitVec 32) : Command w := ⟨word, 0, []⟩

/-- `HASH seed, bytes` (30_encoding.md R62). -/
def hashCommands (w : Width) (seed : Word w) (D : List Byte) : List (Command w) :=
  [encode w (.init (seed.setWidth 64)), encode w (.ingest D), encode w .digest]

/-- `RANDINIT`, for a seed `r` the host draws: a free input, an argument here (30_encoding.md R62). -/
def randinitCommands (w : Width) (r : Word w) : List (Command w) := [encode w (.init (r.setWidth 64))]

/-- `PEEK` (30_encoding.md R62). -/
def peekCommands (w : Width) : List (Command w) := [encode w .digest]

/-- A space or a tab. -/
def isBlank (c : Char) : Bool := c == ' ' || c == '\t'

/-- The text without its comment, which starts at a `;` outside a quoted literal (30_encoding.md R61; log entry 8). -/
def dropComment (inQuote : Bool) : List Char → List Char
  | [] => []
  | c :: cs =>
    if c == ';' && !inQuote then []
    else c :: dropComment (if c == '"' then !inQuote else inQuote) cs

/-- The text without blanks at either end. -/
def trimBlanks (cs : List Char) : List Char := ((cs.dropWhile isBlank).reverse.dropWhile isBlank).reverse

/-- The value of a digit in a base up to 16. -/
def digitValue (base : Nat) (c : Char) : Option Nat :=
  let c := c.toLower
  let d :=
    if '0' ≤ c ∧ c ≤ '9' then c.toNat - '0'.toNat
    else if 'a' ≤ c ∧ c ≤ 'f' then c.toNat - 'a'.toNat + 10
    else base
  if d < base then some d else none

/-- A nonempty run of digits as a number. -/
def parseDigits (base : Nat) (cs : List Char) : Option Nat :=
  if cs.isEmpty then none
  else cs.foldlM (fun n c => (digitValue base c).map (n * base + ·)) 0

/-- A decimal or `0x` hexadecimal integer, the form of `<seed>` (30_encoding.md R61).
DESIGN CHOICE (log entry 8): `<word>` and the `i` and `j` of `PAT(i, j)`, to which R61 gives no form, take it too. -/
def parseNat (cs : List Char) : Option Nat :=
  match trimBlanks cs with
  | '0' :: 'x' :: ds => parseDigits 16 ds
  | ds => parseDigits 10 ds

/-- An integer of `bits` bits: `0 … 2^bits − 1` (30_encoding.md R61). -/
def parseBits (bits : Nat) (cs : List Char) : Option (BitVec bits) :=
  match parseNat cs with
  | some n => if n < 2 ^ bits then some (BitVec.ofNat bits n) else none
  | none => none

/-- The text before the first occurrence of `sep` and the text after it. -/
def splitAtChar (sep : Char) : List Char → Option (List Char × List Char)
  | [] => none
  | c :: cs => if c == sep then some ([], cs) else (splitAtChar sep cs).map fun (a, b) => (c :: a, b)

/-- Hexadecimal byte pairs (30_encoding.md R61). -/
def parseHexPairs : List Char → Option (List Byte)
  | [] => some []
  | [_] => none
  | a :: b :: cs => do
    let n ← parseDigits 16 [a, b]
    let rest ← parseHexPairs cs
    some (BitVec.ofNat 8 n :: rest)

/-- The characters up to a closing quote that ends the operand. -/
def parseQuoted (cs : List Char) : Option (List Char) :=
  match splitAtChar '"' cs with
  | some (inside, []) => some inside
  | _ => none

/-- A `<bytes>` operand: quoted text, hexadecimal pairs, the empty sequence or `PAT(i, j)` (30_encoding.md R61). -/
def parseBytes (cs : List Char) : Option (List Byte) :=
  match trimBlanks cs with
  | 'b' :: '"' :: cs => (parseQuoted cs).bind asciiBytes
  | 'x' :: '"' :: cs => (parseQuoted cs).bind fun hex => parseHexPairs (hex.filter fun c => c != ' ')
  | ['"', '"'] => some []
  | 'P' :: 'A' :: 'T' :: '(' :: cs => do
    let (i, cs) ← splitAtChar ',' cs
    let (j, cs) ← splitAtChar ')' cs
    let i ← parseNat i
    let j ← parseNat j
    if cs.isEmpty && i ≤ j then some (pat i j) else none
  | _ => none

/-- A `<seed>, <bytes>` operand pair. -/
def parseSeedBytes (w : Width) (cs : List Char) : Option (Word w × List Byte) := do
  let (seed, bytes) ← splitAtChar ',' cs
  let seed ← parseBits w.bits seed
  let bytes ← parseBytes bytes
  some (seed, bytes)

/-- The transactions of one mnemonic with its operand text; `draw` is the seed a RANDINIT draws
(30_encoding.md R61, R62). -/
def assembleCommand (w : Width) (draw : Word w) (mnemonic operands : List Char) : Option (List (Command w)) :=
  match String.ofList (mnemonic.map Char.toLower) with
  | "init" => (parseBits w.bits operands).map fun seed => [encode w (.init (seed.setWidth 64))]
  | "ingest" => (parseBytes operands).map fun D => [encode w (.ingest D)]
  | "digest" => if operands.isEmpty then some [encode w .digest] else none
  | "oneshot" => (parseSeedBytes w operands).map fun (seed, D) => [encode w (.oneshot (seed.setWidth 64) D)]
  | "rdstatus" => if operands.isEmpty then some [encode w .rdstatus] else none
  | ".cmd" => (parseBits 32 operands).map fun word => [rawCommand w word]
  | "hash" => (parseSeedBytes w operands).map fun (seed, D) => hashCommands w seed D
  | "randinit" => if operands.isEmpty then some (randinitCommands w draw) else none
  | "peek" => if operands.isEmpty then some (peekCommands w) else none
  | _ => none

/-- The transactions one line stands for, none if it is not in the syntax of 30_encoding.md R61.
A line of blanks and comment only stands for no transaction. -/
def assembleLine (w : Width) (draw : Word w) (line : List Char) : Option (List (Command w)) :=
  match trimBlanks (dropComment false line) with
  | [] => some []
  | cs => assembleCommand w draw (cs.takeWhile fun c => !isBlank c) (trimBlanks (cs.dropWhile fun c => !isBlank c))

end Sys2Proof.Machine
end

