-- ==== Sys2Proof/Safety.lean ====
section
/-! DEFINITION. What a good engine state is (10_state.md R21), sequences of commands, and the terms that claims use. -/

namespace Sys2Proof.Machine

/-- The accumulator holds the stream `S` hashed from the seed `s`: the four clauses of 10_state.md R21, and
`len(S) = TOTAL`. -/
structure Engine.Holds {w : Width} (e : Engine w) (s : Word w) (S : List Byte) : Prop where
  total_eq  : e.total.toNat = S.length
  bufLen_eq : e.bufLen = S.length % blockBytes w
  buf_eq    : e.buf = S.drop (S.length - e.bufLen)
  lanes_eq  : e.lanes = (blocks (seedLanes s) S).1
  seed_eq   : e.seed = s

/-- The invariant of an engine: `FCODE` is written only together with `FAULT <- 1` (10_state.md R17, R18), and while an
accumulator exists it holds some stream (10_state.md R21). -/
def Engine.Inv {w : Width} (e : Engine w) : Prop :=
  (e.fault = true ↔ e.fcode ≠ .none) ∧ (e.valid = true → ∃ S, e.Holds e.seed S)

/-- The invariant of an instance: that of its engine. The ports may hold anything. -/
def State.Inv (s : State) : Prop := s.engine.Inv

/-- An accumulator exists, nothing has faulted, and the buffer is below its capacity: the states in which INGEST and
DIGEST raise neither NOINIT nor INVARIANT (60_exceptions.md R162, R164). -/
def Engine.Ready {w : Width} (e : Engine w) : Prop :=
  e.fault = false ∧ e.valid = true ∧ e.bufLen < blockBytes w

/-- The accumulator state a faulting command must not write (60_exceptions.md R167): all but `FAULT` and `FCODE`. -/
def Engine.SameAccumulator {w : Width} (e f : Engine w) : Prop :=
  e.lanes = f.lanes ∧ e.seed = f.seed ∧ e.buf = f.buf ∧ e.total = f.total ∧ e.valid = f.valid

/-- One byte of the byte-at-a-time form of INGEST (42_accumulator.md R132): buffer it, and process the buffer as a block
when it is full. -/
def Engine.pushByte {w : Width} (e : Engine w) (b : Byte) : Engine w :=
  if (e.buf ++ [b]).length = blockBytes w then { e with lanes := block e.lanes (e.buf ++ [b]), buf := [] }
  else { e with buf := e.buf ++ [b] }

/-- A sequence of commands, each performed in the state the one before it left (20_memory.md R37). -/
def execAll : List Instr → State → Host.Outcome State Fault Refusal
  | [], s => .next s
  | i :: is, s =>
    match exec i s with
    | .next t => execAll is t
    | .fault r => .fault r
    | .refused r => .refused r

/-- The commands that only read: they write no accumulator state (20_memory.md R36). -/
def readsOnly : Instr → Bool
  | .init _ => false
  | .ingest _ => false
  | .digest => true
  | .oneshot _ _ => true
  | .rdstatus => true

/-- The instance of width `w` with the given engine, whose host has the events `evs` pending and has been given the
responses `rs`. -/
def instOf {w : Width} (e : Engine w) (evs : List (HostEvent w)) (rs : List (Response w)) : State := ⟨w, e, ⟨evs, rs⟩⟩

/-- A run of `n` steps that ends without a fault (70_reset_and_hazards.md R198). -/
def SafeRun (n : Nat) (s t : State) : Prop := core.run n s = .next t ∧ t.engine.fault = false

end Sys2Proof.Machine
end

