-- ==== Sys2Proof/Certificates/Slice0/Obligations.lean ====
section
/-! DEFINITION. The statements for the provers. `W` is the width of the instance: every statement about commands is
for both widths. A W-bit seed `x` is presented as `x.setWidth 64`, the widest port's operand. -/

open Sys2Proof Sys2Proof.Machine

/-! ## Encoding -/

/-- Presenting a well-formed command and decoding it gives the command back, with every operand (30_encoding.md R51, R53, R57). -/
def Obligations.DecodeOfEncodeIsTheCommand : Prop :=
  ∀ (w : Width) (i : Instr), i.wf w = true → decode (encode w i) = .ok i

/-- A legal word has one presentation: encoding what was decoded gives the word back, and the operand ports that the
opcode uses; what was decoded is well-formed when the data operand is within its bound (30_encoding.md R53, R57). That `encode` puts zero
and no bytes on the ports the opcode does not use is the model's choice (log entry 10). -/
def Obligations.EncodeOfDecodeKeepsTheWord : Prop :=
  ∀ (w : Width) (c : Command w) (i : Instr), decode c = .ok i → c.dataIn.length ≤ Config.maxLength →
    i.wf w = true ∧ (encode w i).cmd = c.cmd ∧
    ((encode w i).seedIn = c.seedIn ∨ ((encode w i).seedIn = 0 ∧ (c.cmd = 2 ∨ c.cmd = 3 ∨ c.cmd = 5))) ∧
    ((encode w i).dataIn = c.dataIn ∨ ((encode w i).dataIn = [] ∧ (c.cmd = 1 ∨ c.cmd = 3 ∨ c.cmd = 5)))

/-- R52, R58: exactly the words with `CMD[31:4] = 0` and an assigned opcode are legal, which are the words 1 to 5; any
other word raises ILLEGAL, or is ignored while `FAULT = 1`. -/
def Obligations.OnlyFiveWordsAreLegal : Prop :=
  (∀ (w : Width) (c : Command w),
    ((∃ i, decode c = .ok i) ↔
      (c.cmd.toNat / 16 = 0 ∧ (c.cmd.toNat % 16 = 1 ∨ c.cmd.toNat % 16 = 2 ∨ c.cmd.toNat % 16 = 3 ∨
        c.cmd.toNat % 16 = 4 ∨ c.cmd.toNat % 16 = 5))) ∧
    ((∃ i, decode c = .ok i) ↔ (1 ≤ c.cmd.toNat ∧ c.cmd.toNat ≤ 5))) ∧
  (∀ (w : Width) (e : Engine w) (c : Command w) (rest : List (HostEvent w)) (rs : List (Response w)),
    (∀ i, decode c ≠ .ok i) →
    (e.fault = false → step (instOf e (.command c :: rest) rs) =
      .next (instOf { e with fault := true, fcode := .illegal } rest (rs ++ [⟨.faulted, 1⟩]))) ∧
    (e.fault = true → step (instOf e (.command c :: rest) rs) =
      .next (instOf e rest (rs ++ [⟨.ignored, 0⟩]))))

/-- The five words decode to their commands with the operands of the ports they use, whatever the other ports carry
(30_encoding.md R53, R57). -/
def Obligations.FiveWordsDecodeToTheirCommands : Prop :=
  ∀ (w : Width) (x : Word w) (D : List Byte),
    decode (w := w) ⟨0x00000001, x, D⟩ = .ok (.init (x.setWidth 64)) ∧
    decode (w := w) ⟨0x00000002, x, D⟩ = .ok (.ingest D) ∧
    decode (w := w) ⟨0x00000003, x, D⟩ = .ok .digest ∧
    decode (w := w) ⟨0x00000004, x, D⟩ = .ok (.oneshot (x.setWidth 64) D) ∧
    decode (w := w) ⟨0x00000005, x, D⟩ = .ok .rdstatus ∧
    decode (w := w) ⟨0x00000000, x, D⟩ = .error .reservedOpcode ∧
    decode (w := w) ⟨0x00000006, x, D⟩ = .error .reservedOpcode ∧
    decode (w := w) ⟨0x0000000F, x, D⟩ = .error .reservedOpcode ∧
    decode (w := w) ⟨0x00000013, x, D⟩ = .error .reservedBits ∧
    decode (w := w) ⟨0x80000003, x, D⟩ = .error .reservedBits

/-! ## Steps, the dispatch and reset -/

/-- A step with a legal command at the head of the host's stream is `exec` of that command, the event taken. -/
def Obligations.StepPerformsTheDecodedCommand : Prop :=
  ∀ (w : Width) (e : Engine w) (c : Command w) (rest : List (HostEvent w)) (rs : List (Response w)) (i : Instr),
    decode c = .ok i → step (instOf e (.command c :: rest) rs) = exec i (instOf e rest rs)

/-- A legal command word presented by `withFetchWord` is performed by the very next step, on the state as it was: a
legal word runs its command (42_accumulator.md R130). How a word is presented is the model's choice and no rule of the
spec: bare, with `SEED_IN` zero and `DATA_IN` empty, before everything pending (log entry 4); `decodeTableWord` reads it
on the ports of the W = 64 build (log entry 1). -/
def Obligations.StepPerformsThePresentedWord : Prop :=
  ∀ (s : State) (nbits w : Nat) (i : Instr), decodeTableWord nbits w = some i →
    step (s.withFetchWord nbits w) = exec i s

/-- R130: while `FAULT = 1` a legal RDSTATUS is performed and every other word is ignored; otherwise an illegal word
raises ILLEGAL and a legal word runs its command. -/
def Obligations.DispatchRule : Prop :=
  ∀ (w : Width) (e : Engine w) (c : Command w) (rest : List (HostEvent w)) (rs : List (Response w)),
    (e.fault = true → c.cmd = 5 → step (instOf e (.command c :: rest) rs) =
      .next (instOf e rest (rs ++ [⟨.value, e.status.setWidth w.bits⟩]))) ∧
    (e.fault = true → c.cmd ≠ 5 → step (instOf e (.command c :: rest) rs) =
      .next (instOf e rest (rs ++ [⟨.ignored, 0⟩]))) ∧
    (e.fault = false → ¬(1 ≤ c.cmd.toNat ∧ c.cmd.toNat ≤ 5) → step (instOf e (.command c :: rest) rs) =
      .next (instOf { e with fault := true, fcode := .illegal } rest (rs ++ [⟨.faulted, 1⟩]))) ∧
    (e.fault = false →
      (c.cmd = 1 → step (instOf e (.command c :: rest) rs) = exec (.init (c.seedIn.setWidth 64)) (instOf e rest rs)) ∧
      (c.cmd = 2 → step (instOf e (.command c :: rest) rs) = exec (.ingest c.dataIn) (instOf e rest rs)) ∧
      (c.cmd = 3 → step (instOf e (.command c :: rest) rs) = exec .digest (instOf e rest rs)) ∧
      (c.cmd = 4 → step (instOf e (.command c :: rest) rs) =
        exec (.oneshot (c.seedIn.setWidth 64) c.dataIn) (instOf e rest rs)) ∧
      (c.cmd = 5 → step (instOf e (.command c :: rest) rs) = exec .rdstatus (instOf e rest rs)))

/-- The machine never stops: every step answers a next state, of an instance of the same width
(70_reset_and_hazards.md R197, 00_scope.md R2). -/
def Obligations.EveryStepAnswersTheSameInstance : Prop :=
  ∀ s : State, ∃ t, step s = .next t ∧ t.width = s.width

/-- With no event pending the engine holds its state unchanged, however many steps pass (60_exceptions.md R176). -/
def Obligations.IdleEngineHoldsItsState : Prop :=
  ∀ (w : Width) (e : Engine w) (rs : List (Response w)) (n : Nat),
    core.run n (instOf e [] rs) = .next (instOf e [] rs)

/-- Each command gets exactly one response, delivered as its step ends; an assertion of reset gets none, and neither
does the command it interrupts (30_encoding.md R50, 70_reset_and_hazards.md R190). -/
def Obligations.OneResponsePerCommand : Prop :=
  ∀ (w : Width) (e : Engine w) (c : Command w) (rest : List (HostEvent w)) (rs : List (Response w)),
    (∃ e' r, step (instOf e (.command c :: rest) rs) = .next (instOf e' rest (rs ++ [r]))) ∧
    (∃ e', step (instOf e (.reset :: rest) rs) = .next (instOf e' rest rs)) ∧
    (∃ e', step (instOf e (.resetDuring c :: rest) rs) = .next (instOf e' rest rs))

/-- Asserting reset, at any time, puts the engine in its reset state, and none of an interrupted command's effects
survive (70_reset_and_hazards.md R190, R191). The values of the lanes, the seed, the buffer and the total in
`Engine.reset` are the model's choice (log entry 2); `ResetValuesAreUnobservable` says that no response shows them. -/
def Obligations.ResetPutsTheEngineInItsResetState : Prop :=
  ∀ (w : Width) (e : Engine w) (c : Command w) (rest : List (HostEvent w)) (rs : List (Response w)),
    step (instOf e (.reset :: rest) rs) = .next (instOf (Engine.reset w) rest rs) ∧
    step (instOf e (.resetDuring c :: rest) rs) = .next (instOf (Engine.reset w) rest rs) ∧
    (Engine.reset w).valid = false ∧ (Engine.reset w).fault = false ∧ (Engine.reset w).fcode = .none

/-- What reset leaves that the spec gives a value: VALID, FAULT, FCODE, WIDTH and STATUS (70_reset_and_hazards.md R191,
10_state.md R19, R20). That `State.reset` is the W = 64 instance is the model's choice (log entry 1). -/
def Obligations.ResetStatus : Prop :=
  (∀ w, (State.resetOf w).width = w ∧ (State.resetOf w).engine.valid = false ∧
    (State.resetOf w).engine.fault = false ∧ (State.resetOf w).engine.fcode = .none) ∧
  (State.resetOf .w32).engine.status = 0x00000000 ∧ (State.resetOf .w64).engine.status = 0x00000020 ∧
  State.reset = State.resetOf .w64

/-- R192: after reset INIT, ONESHOT and RDSTATUS are performed normally, INGEST and DIGEST raise NOINIT, and every
illegal word raises ILLEGAL, whatever the elements that reset gives no value hold. -/
def Obligations.AfterResetRule : Prop :=
  ∀ (w : Width) (e : Engine w) (c : Command w) (rest : List (HostEvent w)) (rs : List (Response w)),
    e.valid = false → e.fault = false → e.fcode = .none →
    let answers := fun (e' : Engine w) (r : RStat) (v : Word w) =>
      step (instOf e (.command c :: rest) rs) = .next (instOf e' rest (rs ++ [⟨r, v⟩]))
    (c.cmd = 1 → answers { e with seed := c.seedIn, lanes := seedLanes c.seedIn, buf := [], total := 0, valid := true }
      .done 0) ∧
    (c.cmd = 4 → c.dataIn.length ≤ Config.maxLength → answers e .value (oneshotDigest c.seedIn c.dataIn)) ∧
    (c.cmd = 5 → answers e .value (e.status.setWidth w.bits)) ∧
    (c.cmd = 2 ∨ c.cmd = 3 → answers { e with fault := true, fcode := .noInit } .faulted 2) ∧
    (¬(1 ≤ c.cmd.toNat ∧ c.cmd.toNat ≤ 5) → answers { e with fault := true, fcode := .illegal } .faulted 1)

/-- What an engine holds from reset to the first INIT in its lanes, seed, buffer and total is unobservable: two
instances that differ only there give the same responses to the same host events, show the same STATUS, and are equal
once an accumulator exists (70_reset_and_hazards.md R191, 93_implementation_defined.md U4). -/
def Obligations.ResetValuesAreUnobservable : Prop :=
  ∀ (w : Width) (e f : Engine w) (evs : List (HostEvent w)) (rs : List (Response w)) (n : Nat),
    e.valid = false → f.valid = false → e.fault = f.fault → e.fcode = f.fcode →
    ∃ (e' f' : Engine w) (evs' : List (HostEvent w)) (rs' : List (Response w)),
      core.run n (instOf e evs rs) = .next (instOf e' evs' rs') ∧
      core.run n (instOf f evs rs) = .next (instOf f' evs' rs') ∧
      e'.status = f'.status ∧ (e'.valid = true → e' = f')

/-! ## The commands -/

/-- R131: INIT writes SEED, the four lanes, BUFLEN, TOTAL and VALID, leaves FAULT and FCODE alone, and answers
`(DONE, 0)`, whether or not an accumulator existed; while `FAULT = 1` it is ignored. -/
def Obligations.InitRule : Prop :=
  ∀ (w : Width) (e : Engine w) (p : Port w) (x : Word w),
    (e.fault = false → exec (.init (x.setWidth 64)) ⟨w, e, p⟩ =
      .next ⟨w, { lanes := ⟨x + P1 w + P2 w, x + P2 w, x, x - P1 w⟩, seed := x, buf := [], total := 0, valid := true,
                  fault := false, fcode := e.fcode }, p.deliver .done 0⟩) ∧
    (e.fault = true → exec (.init (x.setWidth 64)) ⟨w, e, p⟩ = .next ⟨w, e, p.deliver .ignored 0⟩)

/-- R132: INGEST checks NOINIT, INVARIANT and LENOVF in that order; otherwise the buffered bytes and the data are
combined, `floor((BUFLEN + len(D)) / BS)` blocks go through the lanes oldest first, the rest is buffered, TOTAL grows by
`len(D)`, SEED and VALID are not written, and the answer is `(DONE, 0)`. The body equals the byte-at-a-time form. -/
def Obligations.IngestRule : Prop :=
  ∀ (w : Width) (e : Engine w) (p : Port w) (D : List Byte), e.fault = false →
    (e.valid = false → exec (.ingest D) ⟨w, e, p⟩ =
      .next ⟨w, { e with fault := true, fcode := .noInit }, p.deliver .faulted 2⟩) ∧
    (e.valid = true → blockBytes w ≤ e.bufLen → exec (.ingest D) ⟨w, e, p⟩ =
      .next ⟨w, { e with fault := true, fcode := .invariant }, p.deliver .faulted 4⟩) ∧
    (e.valid = true → e.bufLen < blockBytes w → 2 ^ 64 - 1 < e.total.toNat + D.length →
      exec (.ingest D) ⟨w, e, p⟩ =
        .next ⟨w, { e with fault := true, fcode := .lenOvf }, p.deliver .faulted 3⟩) ∧
    (e.valid = true → e.bufLen < blockBytes w → e.total.toNat + D.length ≤ 2 ^ 64 - 1 →
      ∃ e' : Engine w, exec (.ingest D) ⟨w, e, p⟩ = .next ⟨w, e', p.deliver .done 0⟩ ∧
        (e'.lanes, e'.buf) =
          foldGroups (blockBytes w) block ((e.bufLen + D.length) / blockBytes w) e.lanes (e.buf ++ D) ∧
        e'.bufLen = (e.bufLen + D.length) % blockBytes w ∧
        e'.total.toNat = e.total.toNat + D.length ∧
        e'.seed = e.seed ∧ e'.valid = true ∧ e'.fault = false ∧ e'.fcode = e.fcode ∧
        e' = { D.foldl Engine.pushByte e with total := e'.total } ∧
        (e.bufLen + D.length < blockBytes w → e'.lanes = e.lanes ∧ e'.buf = e.buf ++ D) ∧
        (D = [] → e' = e))

/-- R133: DIGEST checks NOINIT and INVARIANT in that order; otherwise it answers FINALIZE of the accumulator and writes
no state. An empty stream gives `AVALANCHE(SEED + P5)`. -/
def Obligations.DigestRule : Prop :=
  ∀ (w : Width) (e : Engine w) (p : Port w), e.fault = false →
    (e.valid = false → exec .digest ⟨w, e, p⟩ =
      .next ⟨w, { e with fault := true, fcode := .noInit }, p.deliver .faulted 2⟩) ∧
    (e.valid = true → blockBytes w ≤ e.bufLen → exec .digest ⟨w, e, p⟩ =
      .next ⟨w, { e with fault := true, fcode := .invariant }, p.deliver .faulted 4⟩) ∧
    (e.valid = true → e.bufLen < blockBytes w → exec .digest ⟨w, e, p⟩ =
      .next ⟨w, e, p.deliver .value (finalize e.seed e.lanes e.total.toNat e.buf)⟩) ∧
    (e.valid = true → e.total = 0 → e.buf = [] → exec .digest ⟨w, e, p⟩ =
      .next ⟨w, e, p.deliver .value (avalanche (e.seed + P5 w))⟩)

/-- R134: ONESHOT answers the digest of the data from the seed's own lanes and writes no state, with or without an
accumulator; longer data than `2^64 − 1` raises LENOVF. No data gives `AVALANCHE(s + P5)`. -/
def Obligations.OneshotRule : Prop :=
  ∀ (w : Width) (e : Engine w) (p : Port w) (x : Word w) (D : List Byte), e.fault = false →
    (2 ^ 64 - 1 < D.length → exec (.oneshot (x.setWidth 64) D) ⟨w, e, p⟩ =
      .next ⟨w, { e with fault := true, fcode := .lenOvf }, p.deliver .faulted 3⟩) ∧
    (D.length ≤ 2 ^ 64 - 1 → exec (.oneshot (x.setWidth 64) D) ⟨w, e, p⟩ =
      .next ⟨w, e, p.deliver .value
        (finalize x (blocks (seedLanes x) D).1 D.length (blocks (seedLanes x) D).2)⟩) ∧
    (exec (.oneshot (x.setWidth 64) []) ⟨w, e, p⟩ = .next ⟨w, e, p.deliver .value (avalanche (x + P5 w))⟩)

/-- R135: RDSTATUS answers `zext_W(STATUS)` and writes nothing, faulted or not, and it is the one command performed
while `FAULT = 1`: every other is answered `(IGNORED, 0)`; its corner cases. -/
def Obligations.RdstatusRule : Prop :=
  (∀ (w : Width) (e : Engine w) (p : Port w),
    exec .rdstatus ⟨w, e, p⟩ = .next ⟨w, e, p.deliver .value (e.status.setWidth w.bits)⟩) ∧
  (∀ (w : Width) (e : Engine w) (p : Port w) (i : Instr), e.fault = true → i ≠ .rdstatus →
    exec i ⟨w, e, p⟩ = .next ⟨w, e, p.deliver .ignored 0⟩) ∧
  (Engine.reset .w32).status = 0x00000000 ∧ (Engine.reset .w64).status = 0x00000020 ∧
  ({ Engine.reset .w64 with fault := true, fcode := .noInit } : Engine .w64).status = 0x0000002A ∧
  ((Engine.reset .w64).initialise 0).status = 0x00000021

/-- On an initialised, fault-free instance within the length bounds every well-formed command is performed: INIT and
INGEST answer DONE, DIGEST, ONESHOT and RDSTATUS answer VALUE, and no fault is raised (30_encoding.md R55). -/
def Obligations.ReadyEngineNeverFaults : Prop :=
  ∀ (w : Width) (e : Engine w) (p : Port w) (i : Instr), e.Ready → i.wf w = true →
    (∀ D, i = .ingest D → e.total.toNat + D.length ≤ Config.maxLength) →
    ∃ (e' : Engine w) (v : Word w),
      exec i ⟨w, e, p⟩ = .next ⟨w, e', p.deliver (if readsOnly i then .value else .done) v⟩ ∧ e'.Ready ∧
      (readsOnly i = false → v = 0)

/-! ## Faults -/

/-- R166, R167: a command that raises a fault sets FAULT, records its code in FCODE, answers `(FAULTED, zext_W(code))`,
and changes nothing else: V, SEED, BUF, BUFLEN, TOTAL and VALID keep their values. -/
def Obligations.FaultEntryWritesOnlyTheStatus : Prop :=
  ∀ (w : Width) (e e' : Engine w) (c : Command w) (rest rest' : List (HostEvent w)) (rs rs' : List (Response w)),
    e.fault = false → e'.fault = true →
    step (instOf e (.command c :: rest) rs) = .next (instOf e' rest' rs') →
    ∃ code : FaultCode, code ≠ .none ∧ e' = { e with fault := true, fcode := code } ∧ e.SameAccumulator e' ∧
      rest' = rest ∧ rs' = rs ++ [⟨.faulted, code.code.setWidth w.bits⟩]

/-- R161: ILLEGAL is raised by a command word with `CMD[31:4] ≠ 0` or with `CMD[3:0]` in {0x0, 0x6, …, 0xF}, while
`FAULT = 0`. -/
def Obligations.IllegalRule : Prop :=
  ∀ (w : Width) (e : Engine w) (c : Command w) (rest : List (HostEvent w)) (rs : List (Response w)), e.fault = false →
    (c.cmd.extractLsb' 4 28 ≠ 0 ∨ c.cmd.extractLsb' 0 4 = 0 ∨ 6 ≤ (c.cmd.extractLsb' 0 4).toNat ↔
      step (instOf e (.command c :: rest) rs) =
        .next (instOf { e with fault := true, fcode := .illegal } rest (rs ++ [⟨.faulted, 1⟩])))

/-- R162: NOINIT is raised by INGEST and by DIGEST while `VALID = 0`, on an engine with `FAULT = 0` and whatever its
lanes, seed, buffer, total and the data. While `FAULT = 1` they raise nothing and are ignored (60_exceptions.md R165,
R168): that case is in `FaultPriority` and `FaultedEngineIgnoresCommands`. -/
def Obligations.NoInitRule : Prop :=
  ∀ (w : Width) (e : Engine w) (p : Port w) (D : List Byte), e.fault = false → e.valid = false →
    exec (.ingest D) ⟨w, e, p⟩ = .next ⟨w, { e with fault := true, fcode := .noInit }, p.deliver .faulted 2⟩ ∧
    exec .digest ⟨w, e, p⟩ = .next ⟨w, { e with fault := true, fcode := .noInit }, p.deliver .faulted 2⟩

/-- R163: LENOVF is raised by INGEST when `TOTAL + len(D) > 2^64 − 1` and by ONESHOT when `len(D) > 2^64 − 1`, and then
only. -/
def Obligations.LenOvfRule : Prop :=
  ∀ (w : Width) (e : Engine w) (p : Port w) (x : Word w) (D : List Byte),
    (e.Ready → (2 ^ 64 - 1 < e.total.toNat + D.length ↔ exec (.ingest D) ⟨w, e, p⟩ =
      .next ⟨w, { e with fault := true, fcode := .lenOvf }, p.deliver .faulted 3⟩)) ∧
    (e.fault = false → (2 ^ 64 - 1 < D.length ↔ exec (.oneshot (x.setWidth 64) D) ⟨w, e, p⟩ =
      .next ⟨w, { e with fault := true, fcode := .lenOvf }, p.deliver .faulted 3⟩))

/-- R165: a command raises at most one fault, the first of: already faulted (ignored, no new fault), ILLEGAL, NOINIT,
INVARIANT, LENOVF. -/
def Obligations.FaultPriority : Prop :=
  ∀ (w : Width) (e : Engine w) (c : Command w) (rest : List (HostEvent w)) (rs : List (Response w)),
    let raises := fun (code : FaultCode) (v : Word w) =>
      step (instOf e (.command c :: rest) rs) =
        .next (instOf { e with fault := true, fcode := code } rest (rs ++ [⟨.faulted, v⟩]))
    let illegal := ¬(1 ≤ c.cmd.toNat ∧ c.cmd.toNat ≤ 5)
    let incremental := c.cmd = 2 ∨ c.cmd = 3
    (e.fault = true → c.cmd ≠ 5 →
      step (instOf e (.command c :: rest) rs) = .next (instOf e rest (rs ++ [⟨.ignored, 0⟩]))) ∧
    (e.fault = false → illegal → raises .illegal 1) ∧
    (e.fault = false → incremental → e.valid = false → raises .noInit 2) ∧
    (e.fault = false → incremental → e.valid = true → blockBytes w ≤ e.bufLen → raises .invariant 4) ∧
    (e.fault = false → c.cmd = 2 → e.valid = true → e.bufLen < blockBytes w →
      2 ^ 64 - 1 < e.total.toNat + c.dataIn.length → raises .lenOvf 3) ∧
    (e.fault = false → c.cmd = 4 → 2 ^ 64 - 1 < c.dataIn.length → raises .lenOvf 3)

/-- R168: after a fault every command is answered `(IGNORED, 0)` and has no effect, INIT as well, except that a
well-formed RDSTATUS answers `(VALUE, zext_W(STATUS))`. -/
def Obligations.FaultedEngineIgnoresCommands : Prop :=
  ∀ (w : Width) (e : Engine w) (c : Command w) (rest : List (HostEvent w)) (rs : List (Response w)), e.fault = true →
    (c.cmd ≠ 5 → step (instOf e (.command c :: rest) rs) = .next (instOf e rest (rs ++ [⟨.ignored, 0⟩]))) ∧
    (c.cmd = 5 → step (instOf e (.command c :: rest) rs) =
      .next (instOf e rest (rs ++ [⟨.value, e.status.setWidth w.bits⟩])))

/-- R169: only reset clears FAULT and FCODE. Over any run in which the host does not assert reset, a faulted engine keeps
its whole state, the first fault's code included; an assertion of reset clears both. -/
def Obligations.OnlyResetClearsAFault : Prop :=
  ∀ (w : Width) (e : Engine w) (rs : List (Response w)), e.fault = true →
    (∀ (cs : List (Command w)) (n : Nat), ∃ (cs' : List (Command w)) (rs' : List (Response w)),
      core.run n (instOf e (cs.map .command) rs) = .next (instOf e (cs'.map .command) rs')) ∧
    (∀ rest : List (HostEvent w), ∃ e' : Engine w,
      step (instOf e (.reset :: rest) rs) = .next (instOf e' rest rs) ∧ e'.fault = false ∧ e'.fcode = .none)

/-- A run of commands that ends fault-free was fault-free throughout: it began so, and every command it performed was
answered DONE or VALUE (70_reset_and_hazards.md R198). -/
def Obligations.SafeRunsAnswerDoneOrValue : Prop :=
  ∀ (w : Width) (e : Engine w) (cs : List (Command w)) (rs : List (Response w)) (n : Nat) (t : State),
    SafeRun n (instOf e (cs.map .command) rs) t → e.fault = false ∧
    ∃ (e' : Engine w) (cs' : List (Command w)) (new : List (Response w)),
      t = instOf e' (cs'.map .command) (rs ++ new) ∧ ∀ r ∈ new, r.rstat = .done ∨ r.rstat = .value

/-! ## What each command leaves unchanged, and whole-machine rules -/

/-- The frame of the reading commands: DIGEST, ONESHOT and RDSTATUS write no accumulator state, and FAULT and FCODE only
when they raise a fault; the host's pending events and earlier responses are kept (20_memory.md R36). -/
def Obligations.ReadingCommandsWriteNoAccumulator : Prop :=
  ∀ (w : Width) (e : Engine w) (p : Port w) (i : Instr) (t : State), readsOnly i = true →
    exec i ⟨w, e, p⟩ = .next t →
    ∃ (e' : Engine w) (r : Response w), t = ⟨w, e', ⟨p.pending, p.responses ++ [r]⟩⟩ ∧ e.SameAccumulator e' ∧
      (r.rstat ≠ .faulted → e' = e)

/-- The frame of INIT and INGEST: INIT leaves FAULT and FCODE as they were (10_state.md R17, R18, 42_accumulator.md R131);
INGEST leaves SEED and VALID as they were (10_state.md R11, R16, 42_accumulator.md R132), FAULT and FCODE too unless it
raises a fault (R17, R18), the whole accumulator, TOTAL included, when it raises one (R14, 60_exceptions.md R167), and
the lanes when no block completes (R10, R132). Each adds one response (30_encoding.md R50). -/
def Obligations.WritingCommandsFrame : Prop :=
  ∀ (w : Width) (e : Engine w) (p : Port w) (x : BitVec 64) (D : List Byte) (t : State),
    (exec (.init x) ⟨w, e, p⟩ = .next t →
      ∃ (e' : Engine w) (r : Response w), t = ⟨w, e', ⟨p.pending, p.responses ++ [r]⟩⟩ ∧
        e'.fault = e.fault ∧ e'.fcode = e.fcode) ∧
    (exec (.ingest D) ⟨w, e, p⟩ = .next t →
      ∃ (e' : Engine w) (r : Response w), t = ⟨w, e', ⟨p.pending, p.responses ++ [r]⟩⟩ ∧
        e'.seed = e.seed ∧ e'.valid = e.valid ∧
        (r.rstat ≠ .faulted → e'.fault = e.fault ∧ e'.fcode = e.fcode) ∧
        (r.rstat = .faulted → e.SameAccumulator e') ∧
        (e.bufLen + D.length < blockBytes w → e'.lanes = e.lanes))

/-- Over every command word, legal or not: VALID is set by a performed INIT only and never cleared; FAULT is never
cleared; FCODE is written only together with `FAULT <- 1` (10_state.md R16 to R18). -/
def Obligations.StatusBitsChangeOnlyAsRuled : Prop :=
  ∀ (w : Width) (e : Engine w) (c : Command w) (rest : List (HostEvent w)) (rs : List (Response w)),
    ∃ (e' : Engine w) (r : Response w),
      step (instOf e (.command c :: rest) rs) = .next (instOf e' rest (rs ++ [r])) ∧
      (e.valid = true → e'.valid = true) ∧
      (e'.valid = true → e.valid = true ∨ (c.cmd = 1 ∧ r = ⟨.done, 0⟩)) ∧
      (e.fault = true → e'.fault = true) ∧
      (e'.fcode ≠ e.fcode → e.fault = false ∧ e'.fault = true) ∧
      (e'.fault = true → e.fault = false → r.rstat = .faulted)

/-- Over every command word, legal or not, by its answer: a performed INGEST, and nothing else, makes TOTAL grow, by
exactly the bytes ingested; a performed INIT sets it to 0; any other answer keeps it. So it never decreases but by INIT,
and the long phase lasts until the next INIT (10_state.md R14, R15). -/
def Obligations.TotalCountsTheBytesIngested : Prop :=
  ∀ (w : Width) (e : Engine w) (c : Command w) (rest : List (HostEvent w)) (rs : List (Response w)),
    ∃ (e' : Engine w) (r : Response w),
      step (instOf e (.command c :: rest) rs) = .next (instOf e' rest (rs ++ [r])) ∧
      (c.cmd = 2 → r = ⟨.done, 0⟩ → e'.total.toNat = e.total.toNat + c.dataIn.length) ∧
      (c.cmd = 1 → r = ⟨.done, 0⟩ → e'.total = 0) ∧
      (¬((c.cmd = 1 ∨ c.cmd = 2) ∧ r = ⟨.done, 0⟩) → e'.total = e.total) ∧
      (c.cmd ≠ 1 → e.total.toNat ≤ e'.total.toNat ∧ (e.large = true → e'.large = true))

/-- R19: the layout of STATUS, for every engine: bit 0 VALID, bit 1 FAULT, bits 4:2 FCODE, bit 5 WIDTH, the rest 0; and
the codes of FCODE and RSTAT (60_exceptions.md R160, 30_encoding.md R55). -/
def Obligations.StatusLayoutAndCodes : Prop :=
  (∀ (w : Width) (e : Engine w),
    e.status.getLsbD 0 = e.valid ∧ e.status.getLsbD 1 = e.fault ∧ e.status.extractLsb' 2 3 = e.fcode.code ∧
    e.status.getLsbD 5 = decide (w = .w64) ∧ e.status.extractLsb' 6 26 = 0) ∧
  [FaultCode.none, .illegal, .noInit, .lenOvf, .invariant].map FaultCode.code = [0, 1, 2, 3, 4] ∧
  [RStat.done, .value, .faulted, .ignored].map RStat.code = [0, 1, 2, 3]

/-! ## The accumulator invariant -/

/-- The invariant holds of the reset state, of either build. -/
def Obligations.ResetMeetsTheInvariant : Prop :=
  (∀ w, (State.resetOf w).Inv) ∧ State.reset.Inv

/-- Every step keeps the invariant of 10_state.md R21: FAULT says whether FCODE holds a code, and while an accumulator
exists its lanes, buffer, BUFLEN, TOTAL and SEED are those of some stream. -/
def Obligations.EveryStepKeepsTheInvariant : Prop :=
  ∀ s t : State, s.Inv → step s = .next t → t.Inv

/-- R21: after INIT with seed `x` and INGESTs whose concatenated data is `S`, all answered DONE, the engine holds `S`:
BUFLEN is `TOTAL mod BS`, BUF is the last BUFLEN bytes, V is the lanes of the whole blocks, SEED is `x`. -/
def Obligations.AccumulatorHoldsTheStream : Prop :=
  ∀ (w : Width) (e : Engine w) (p : Port w) (x : Word w) (Cs : List (List Byte)), e.fault = false →
    Cs.flatten.length ≤ Config.maxLength →
    ∃ (e' : Engine w) (p' : Port w),
      execAll (.init (x.setWidth 64) :: Cs.map .ingest) ⟨w, e, p⟩ = .next ⟨w, e', p'⟩ ∧
      p'.responses = p.responses ++ List.replicate (Cs.length + 1) ⟨.done, 0⟩ ∧
      e'.valid = true ∧ e'.fault = false ∧ e'.fcode = e.fcode ∧
      e'.total.toNat = Cs.flatten.length ∧
      e'.bufLen = e'.total.toNat % blockBytes w ∧
      e'.buf = Cs.flatten.drop (e'.total.toNat - e'.bufLen) ∧
      e'.lanes = (blocks (seedLanes x) (Cs.flatten.take (e'.total.toNat / blockBytes w * blockBytes w))).1 ∧
      e'.seed = x

/-- What the invariant gives: an existing accumulator's buffer is below its capacity, so INVARIANT cannot be raised; in
the short phase no block has been processed, all bytes are buffered and `V[2] = SEED` (10_state.md R11, R13, 60_exceptions.md R164). -/
def Obligations.InvariantRulesOutTheInvariantFault : Prop :=
  ∀ (w : Width) (e : Engine w), e.Inv → e.valid = true →
    e.bufLen < blockBytes w ∧
    (e.large = false → e.lanes = seedLanes e.seed ∧ e.lanes.v2 = e.seed ∧ e.bufLen = e.total.toNat) ∧
    (∀ (p : Port w) (D : List Byte) (t : State), e.fault = false →
      (exec .digest ⟨w, e, p⟩ = .next t ∨ exec (.ingest D) ⟨w, e, p⟩ = .next t) → t.engine.fcode ≠ .invariant)

/-! ## The laws of the source -/

/-- R136: chunk invariance. For every seed and data there are lanes, a buffer and a digest, bound before the engine and
so independent of what went before, such that from every fault-free engine every partition of the data into INGESTs
leads to the accumulator with those lanes, that buffer, that seed and the data's length (FCODE as it was), DIGEST there
answers that digest, and ONESHOT answers it too. -/
def Obligations.ChunkInvariance : Prop :=
  ∀ (w : Width) (x : Word w) (D : List Byte), D.length ≤ Config.maxLength →
    ∃ (v : Lanes w) (b : List Byte) (d : Word w), ∀ e : Engine w, e.fault = false →
      let e' : Engine w := { lanes := v, seed := x, buf := b, total := BitVec.ofNat 64 D.length, valid := true,
                             fault := false, fcode := e.fcode }
      (∀ p : Port w, exec (.oneshot (x.setWidth 64) D) ⟨w, e, p⟩ = .next ⟨w, e, p.deliver .value d⟩) ∧
      (∀ (p : Port w) (Cs : List (List Byte)), Cs.flatten = D → ∃ p' : Port w,
        execAll (.init (x.setWidth 64) :: Cs.map .ingest) ⟨w, e, p⟩ = .next ⟨w, e', p'⟩ ∧
        exec .digest ⟨w, e', p'⟩ = .next ⟨w, e', p'.deliver .value d⟩)

/-- R137: two DIGESTs with no INGEST or INIT between them answer the same value, whatever reading commands come between. -/
def Obligations.IdempotentDigest : Prop :=
  ∀ (w : Width) (e : Engine w) (p : Port w) (mid : List Instr), e.Ready →
    (∀ i ∈ mid, readsOnly i = true ∧ i.wf w = true) →
    ∃ (d : Word w) (rs : List (Response w)), rs.length = mid.length ∧
      execAll (.digest :: (mid ++ [.digest])) ⟨w, e, p⟩ =
        .next ⟨w, e, ⟨p.pending, p.responses ++ ⟨.value, d⟩ :: (rs ++ [⟨.value, d⟩])⟩⟩

/-- R138: a DIGEST between two INGESTs does not disturb the stream: the second DIGEST answers ONESHOT of all the data. -/
def Obligations.DigestDoesNotDisturbTheStream : Prop :=
  ∀ (w : Width) (e : Engine w) (p : Port w) (x : Word w) (D E : List Byte), e.fault = false →
    (D ++ E).length ≤ Config.maxLength →
    ∃ (e' : Engine w) (d1 d2 : Word w),
      execAll [.init (x.setWidth 64), .ingest D, .digest, .ingest E, .digest] ⟨w, e, p⟩ =
        .next ⟨w, e', ⟨p.pending,
          p.responses ++ [⟨.done, 0⟩, ⟨.done, 0⟩, ⟨.value, d1⟩, ⟨.done, 0⟩, ⟨.value, d2⟩]⟩⟩ ∧
      exec (.oneshot (x.setWidth 64) (D ++ E)) ⟨w, e, p⟩ = .next ⟨w, e, p.deliver .value d2⟩ ∧
      exec (.oneshot (x.setWidth 64) D) ⟨w, e, p⟩ = .next ⟨w, e, p.deliver .value d1⟩

/-- The pseudo-command HASH, run by steps from any fault-free state, answers ONESHOT's digest, which depends on the seed
and the data alone, not on the history before the INIT (30_encoding.md R62, 42_accumulator.md R139, R141). -/
def Obligations.HashAnswersOneshotWhateverTheHistory : Prop :=
  ∀ (w : Width) (x : Word w) (D : List Byte), D.length ≤ Config.maxLength → ∃ d : Word w,
    ∀ (e : Engine w) (rest : List (HostEvent w)) (rs : List (Response w)), e.fault = false →
      step (instOf e (.command ⟨4, x, D⟩ :: rest) rs) = .next (instOf e rest (rs ++ [⟨.value, d⟩])) ∧
      ∃ e' : Engine w, core.run 3 (instOf e ((hashCommands w x D).map .command ++ rest) rs) =
        .next (instOf e' rest (rs ++ [⟨.done, 0⟩, ⟨.done, 0⟩, ⟨.value, d⟩]))

/-- R141: INIT then DIGEST answers the digest of ONESHOT of no data, which is `AVALANCHE(s + P5)`; INIT, one INGEST and
DIGEST answer the digest of ONESHOT of that data. -/
def Obligations.EdgeCaseDigests : Prop :=
  ∀ (w : Width) (e : Engine w) (p : Port w) (x : Word w) (D : List Byte), e.fault = false →
    D.length ≤ Config.maxLength →
    (∃ e' : Engine w, execAll [.init (x.setWidth 64), .digest] ⟨w, e, p⟩ =
      .next ⟨w, e', ⟨p.pending, p.responses ++ [⟨.done, 0⟩, ⟨.value, avalanche (x + P5 w)⟩]⟩⟩) ∧
    exec (.oneshot (x.setWidth 64) []) ⟨w, e, p⟩ = .next ⟨w, e, p.deliver .value (avalanche (x + P5 w))⟩ ∧
    ∃ (e' : Engine w) (d : Word w),
      execAll [.init (x.setWidth 64), .ingest D, .digest] ⟨w, e, p⟩ =
        .next ⟨w, e', ⟨p.pending, p.responses ++ [⟨.done, 0⟩, ⟨.done, 0⟩, ⟨.value, d⟩]⟩⟩ ∧
      exec (.oneshot (x.setWidth 64) D) ⟨w, e, p⟩ = .next ⟨w, e, p.deliver .value d⟩

/-! ## The datapath -/

/-- The parameters derived from W: `G = W / 8`, `BS = 4 · G`, R, and `BUFLEN_BITS = log2 BS` (00_scope.md R3). -/
def Obligations.DerivedParameters : Prop :=
  (∀ w : Width, 8 * groupBytes w = w.bits ∧ blockBytes w = 4 * groupBytes w ∧ 2 ^ bufLenBits w = blockBytes w) ∧
  (Width.bits .w32, groupBytes .w32, blockBytes .w32, roundRotation .w32, bufLenBits .w32) = (32, 4, 16, 13, 4) ∧
  (Width.bits .w64, groupBytes .w64, blockBytes .w64, roundRotation .w64, bufLenBits .w64) = (64, 8, 32, 31, 5)

/-- R5: `rotl_W` is the left rotation: as a number it is `((x << r) | (x >> (W − r))) mod 2^W`, and bit `i` of the
result is bit `i − r` modulo `W` of the operand. The rotations used are below `W` at the width that uses them. -/
def Obligations.RotationRule : Prop :=
  (∀ (w : Width) (x : Word w) (r : Nat), 0 < r → r < w.bits →
    (rotl x r).toNat = ((x.toNat <<< r) ||| (x.toNat >>> (w.bits - r))) % 2 ^ w.bits ∧
    ∀ i, i < w.bits → (rotl x r).getLsbD i = x.getLsbD ((i + (w.bits - r)) % w.bits)) ∧
  (∀ w : Width, ∀ r ∈ [1, 7, 12, 18, roundRotation w], 0 < r ∧ r < w.bits) ∧
  (∀ r ∈ [11, 23, 27], r < Width.bits .w64) ∧ (∀ r ∈ [11, 17], r < Width.bits .w32)

/-- R6: `le_n(g) = Σ g[i] · 2^(8i)`, an unsigned integer of `8n` bits, so zero-extension to `W` bits keeps it when
`n ≤ W / 8`. -/
def Obligations.LittleEndianRule : Prop :=
  ∀ (w : Width) (g : List Byte),
    leNat g = ((List.finRange g.length).map fun i => (g.get i).toNat * 2 ^ (8 * i.val)).sum ∧
    leNat g < 2 ^ (8 * g.length) ∧
    (g.length ≤ groupBytes w → (leWord w g).toNat = leNat g)

/-- R74, R75, R76, R77: the round, the merge round and the lane merge of both widths, with the constants of R70 to R72. -/
def Obligations.RoundAndMergeRules : Prop :=
  (∀ lane input : BitVec 64, round (w := .w64) lane input =
    (lane + input * 0xC2B2AE3D27D4EB4F#64).rotateLeft 31 * 0x9E3779B185EBCA87#64) ∧
  (∀ lane input : BitVec 32, round (w := .w32) lane input =
    (lane + input * 0x85EBCA77#32).rotateLeft 13 * 0x9E3779B1#32) ∧
  (∀ w, round (w := w) 0 0 = 0) ∧
  (∀ acc val : BitVec 64, mergeRound acc val =
    (acc ^^^ round (w := .w64) 0 val) * 0x9E3779B185EBCA87#64 + 0x85EBCA77C2B2AE63#64) ∧
  (∀ acc : BitVec 64, mergeRound acc 0 = acc * 0x9E3779B185EBCA87#64 + 0x85EBCA77C2B2AE63#64) ∧
  (∀ v0 v1 v2 v3 : BitVec 32, mergeLanes (w := .w32) ⟨v0, v1, v2, v3⟩ =
    v0.rotateLeft 1 + v1.rotateLeft 7 + v2.rotateLeft 12 + v3.rotateLeft 18) ∧
  (∀ v0 v1 v2 v3 : BitVec 64, mergeLanes (w := .w64) ⟨v0, v1, v2, v3⟩ =
    [v0, v1, v2, v3].foldl mergeRound (v0.rotateLeft 1 + v1.rotateLeft 7 + v2.rotateLeft 12 + v3.rotateLeft 18))

/-- R78, R79, R81, R82: the avalanche and the seed initializer of both widths, with the constants of R70 and R71. -/
def Obligations.AvalancheAndSeedRules : Prop :=
  (∀ h : BitVec 64, avalanche (w := .w64) h =
    let h := h ^^^ (h >>> 33)
    let h := h * 0xC2B2AE3D27D4EB4F#64
    let h := h ^^^ (h >>> 29)
    let h := h * 0x165667B19E3779F9#64
    h ^^^ (h >>> 32)) ∧
  (∀ h : BitVec 32, avalanche (w := .w32) h =
    let h := h ^^^ (h >>> 15)
    let h := h * 0x85EBCA77#32
    let h := h ^^^ (h >>> 13)
    let h := h * 0xC2B2AE3D#32
    h ^^^ (h >>> 16)) ∧
  (∀ s : BitVec 64, seedLanes (w := .w64) s =
    ⟨s + 0x9E3779B185EBCA87#64 + 0xC2B2AE3D27D4EB4F#64, s + 0xC2B2AE3D27D4EB4F#64, s, s - 0x9E3779B185EBCA87#64⟩) ∧
  (∀ s : BitVec 32, seedLanes (w := .w32) s =
    ⟨s + 0x9E3779B1#32 + 0x85EBCA77#32, s + 0x85EBCA77#32, s, s - 0x9E3779B1#32⟩) ∧
  (∀ s : BitVec 64, seedShort (w := .w64) s = s + 0x27D4EB2F165667C5#64) ∧
  (∀ s : BitVec 32, seedShort (w := .w32) s = s + 0x165667B1#32)

/-- R100, R101: lane `i` takes the `i`-th group of the block, decoded little-endian, and no lane reads another; an
all-zero block maps each lane `v` to `rotl_W(v, R) * P1`. -/
def Obligations.BlockRule : Prop :=
  (∀ (w : Width) (v : Lanes w) (g0 g1 g2 g3 : List Byte), g0.length = groupBytes w → g1.length = groupBytes w →
    g2.length = groupBytes w → g3.length = groupBytes w →
    block v (g0 ++ g1 ++ g2 ++ g3) =
      ⟨round v.v0 (leWord w g0), round v.v1 (leWord w g1), round v.v2 (leWord w g2), round v.v3 (leWord w g3)⟩) ∧
  (∀ (w : Width) (v : Lanes w), block v (List.replicate (blockBytes w) 0) =
    let lane := fun x : Word w => rotl x (roundRotation w) * P1 w
    ⟨lane v.v0, lane v.v1, lane v.v2, lane v.v3⟩)

/-- R102: blocks are consumed oldest first until fewer than `BS` bytes remain; the tail is the last `len(S) mod BS` bytes. -/
def Obligations.BlocksRule : Prop :=
  ∀ (w : Width) (v : Lanes w) (B S : List Byte),
    (B.length = blockBytes w → blocks v (B ++ S) = blocks (block v B) S) ∧
    (S.length < blockBytes w → blocks v S = (v, S)) ∧
    (blocks v S).2 = S.drop (S.length / blockBytes w * blockBytes w) ∧
    (blocks v S).2.length = S.length % blockBytes w

/-- R103, R110: TAIL64 takes 8-byte groups while at least 8 bytes remain, then one 4-byte group if at least 4 remain,
then single bytes, all in stream order; an empty tail leaves the accumulator unchanged. -/
def Obligations.Tail64Rule : Prop :=
  ∀ (acc : Word .w64) (g T : List Byte),
    (g.length = 8 → tail64 acc (g ++ T) = tail64 (t64x8 acc g) T) ∧
    (g.length = 4 → T.length < 4 → tail64 acc (g ++ T) = tail64 (t64x4 acc g) T) ∧
    (∀ b, (b :: T).length < 4 → tail64 acc (b :: T) = tail64 (t64x1 acc b) T) ∧
    tail64 acc [] = acc

/-- R107, R110: TAIL32 takes 4-byte groups while at least 4 bytes remain, then single bytes, all in stream order; an
empty tail leaves the accumulator unchanged. -/
def Obligations.Tail32Rule : Prop :=
  ∀ (acc : Word .w32) (g T : List Byte),
    (g.length = 4 → tail32 acc (g ++ T) = tail32 (t32x4 acc g) T) ∧
    (∀ b, (b :: T).length < 4 → tail32 acc (b :: T) = tail32 (t32x1 acc b) T) ∧
    tail32 acc [] = acc

/-- R104, R105, R106, R108, R109: the five tail steps, with their rotations and constants, on groups given byte by byte. -/
def Obligations.TailStepRules : Prop :=
  (∀ (acc : BitVec 64) (b0 b1 b2 b3 b4 b5 b6 b7 : Byte), t64x8 acc [b0, b1, b2, b3, b4, b5, b6, b7] =
    (acc ^^^ round (w := .w64) 0 (b7 ++ b6 ++ b5 ++ b4 ++ b3 ++ b2 ++ b1 ++ b0)).rotateLeft 27
      * 0x9E3779B185EBCA87#64 + 0x85EBCA77C2B2AE63#64) ∧
  (∀ (acc : BitVec 64) (b0 b1 b2 b3 : Byte), t64x4 acc [b0, b1, b2, b3] =
    (acc ^^^ ((b3 ++ b2 ++ b1 ++ b0).setWidth 64 * 0x9E3779B185EBCA87#64)).rotateLeft 23
      * 0xC2B2AE3D27D4EB4F#64 + 0x165667B19E3779F9#64) ∧
  (∀ (acc : BitVec 64) (b : Byte), t64x1 acc b =
    (acc ^^^ (b.setWidth 64 * 0x27D4EB2F165667C5#64)).rotateLeft 11 * 0x9E3779B185EBCA87#64) ∧
  (∀ (acc : BitVec 32) (b0 b1 b2 b3 : Byte), t32x4 acc [b0, b1, b2, b3] =
    (acc + (b3 ++ b2 ++ b1 ++ b0) * 0xC2B2AE3D#32).rotateLeft 17 * 0x27D4EB2F#32) ∧
  (∀ (acc : BitVec 32) (b : Byte), t32x1 acc b =
    (acc + b.setWidth 32 * 0x165667B1#32).rotateLeft 11 * 0x9E3779B1#32)

/-- R111: `ADD_LEN(acc, n) = acc + (n mod 2^W)`, modulo `2^W`; so at W = 32 lengths that differ by a multiple of `2^32`
give the same digest in the long phase. -/
def Obligations.AddLengthRule : Prop :=
  (∀ (w : Width) (acc : Word w) (n : Nat), (addLen acc n).toNat = (acc.toNat + n % 2 ^ w.bits) % 2 ^ w.bits) ∧
  (∀ (seed : Word .w32) (v : Lanes .w32) (n k : Nat) (T : List Byte), 16 ≤ n →
    finalize seed v (n + k * 2 ^ 32) T = finalize seed v n T)

/-- R112, R113: the merged lanes are the start exactly when `n ≥ BS`, the short accumulator exactly when `n < BS`,
whatever the tail; then the length, the tail and the avalanche, on both paths. -/
def Obligations.FinalizeRule : Prop :=
  ∀ (w : Width) (seed : Word w) (v : Lanes w) (n : Nat) (T : List Byte),
    (blockBytes w ≤ n → finalize seed v n T = avalanche (tail (addLen (mergeLanes v) n) T)) ∧
    (n < blockBytes w → finalize seed v n T = avalanche (tail (addLen (seedShort seed) n) T))

/-- The pseudo-commands expand to the commands R62 shows, and `PAT(i, j)` is the bytes at positions `i … j−1` of the
pattern stream (30_encoding.md R61, R62). The zero and the empty sequence on the ports an opcode does not use are the
model's choice (log entry 10). -/
def Obligations.PseudoCommandsAndPattern : Prop :=
  (∀ (w : Width) (x r : Word w) (D : List Byte),
    hashCommands w x D = [⟨1, x, []⟩, ⟨2, 0, D⟩, ⟨3, 0, []⟩] ∧ randinitCommands w r = [⟨1, r, []⟩] ∧
    peekCommands w = [⟨3, 0, []⟩]) ∧
  (∀ i j : Nat, (pat i j).length = j - i ∧
    ∀ k, k < j - i → ∃ b, (pat i j)[k]? = some b ∧ b.toNat = (i + k) % 256)
end

