-- ==== Sys2Proof/Laws/State.lean ====
section
/-! SUPPORT. One lemma per field per update of `State`, `Port` and `Engine`. -/

namespace Sys2Proof.Machine

section
variable {w : Width} (e : Engine w) (p : Port w) (s : State)

@[simp] theorem setEngine_width (f : Engine s.width) : (s.setEngine f).width = s.width := rfl
@[simp] theorem setEngine_engine (f : Engine s.width) : (s.setEngine f).engine = f := rfl
@[simp] theorem setEngine_port (f : Engine s.width) : (s.setEngine f).port = s.port := rfl
@[simp] theorem setEngine_mk (f : Engine w) : (State.mk w e p).setEngine f = ⟨w, f, p⟩ := rfl

@[simp] theorem setPending_width (evs : List (HostEvent s.width)) : (s.setPending evs).width = s.width := rfl
@[simp] theorem setPending_engine (evs : List (HostEvent s.width)) : (s.setPending evs).engine = s.engine := rfl
@[simp] theorem setPending_mk (evs : List (HostEvent w)) :
    (State.mk w e p).setPending evs = ⟨w, e, ⟨evs, p.responses⟩⟩ := rfl

@[simp] theorem deliver_pending (r : RStat) (v : Word w) : (p.deliver r v).pending = p.pending := rfl
@[simp] theorem deliver_responses (r : RStat) (v : Word w) :
    (p.deliver r v).responses = p.responses ++ [⟨r, v⟩] := rfl

@[simp] theorem respond_width (r : RStat) (v : Word s.width) : (s.respond r v).width = s.width := rfl
@[simp] theorem respond_engine (r : RStat) (v : Word s.width) : (s.respond r v).engine = s.engine := rfl
@[simp] theorem respond_mk (r : RStat) (v : Word w) : (State.mk w e p).respond r v = ⟨w, e, p.deliver r v⟩ := rfl

@[simp] theorem record_lanes (c : FaultCode) : (e.record c).lanes = e.lanes := rfl
@[simp] theorem record_seed (c : FaultCode) : (e.record c).seed = e.seed := rfl
@[simp] theorem record_buf (c : FaultCode) : (e.record c).buf = e.buf := rfl
@[simp] theorem record_total (c : FaultCode) : (e.record c).total = e.total := rfl
@[simp] theorem record_valid (c : FaultCode) : (e.record c).valid = e.valid := rfl
@[simp] theorem record_fault (c : FaultCode) : (e.record c).fault = true := rfl
@[simp] theorem record_fcode (c : FaultCode) : (e.record c).fcode = c := rfl

@[simp] theorem initialise_lanes (x : Word w) : (e.initialise x).lanes = seedLanes x := rfl
@[simp] theorem initialise_seed (x : Word w) : (e.initialise x).seed = x := rfl
@[simp] theorem initialise_buf (x : Word w) : (e.initialise x).buf = [] := rfl
@[simp] theorem initialise_total (x : Word w) : (e.initialise x).total = 0 := rfl
@[simp] theorem initialise_valid (x : Word w) : (e.initialise x).valid = true := rfl
@[simp] theorem initialise_fault (x : Word w) : (e.initialise x).fault = e.fault := rfl
@[simp] theorem initialise_fcode (x : Word w) : (e.initialise x).fcode = e.fcode := rfl

@[simp] theorem append_lanes (D : List Byte) : (e.append D).lanes = (blocks e.lanes (e.buf ++ D)).1 := rfl
@[simp] theorem append_seed (D : List Byte) : (e.append D).seed = e.seed := rfl
@[simp] theorem append_buf (D : List Byte) : (e.append D).buf = (blocks e.lanes (e.buf ++ D)).2 := rfl
@[simp] theorem append_total (D : List Byte) : (e.append D).total = e.total + BitVec.ofNat 64 D.length := rfl
@[simp] theorem append_valid (D : List Byte) : (e.append D).valid = e.valid := rfl
@[simp] theorem append_fault (D : List Byte) : (e.append D).fault = e.fault := rfl
@[simp] theorem append_fcode (D : List Byte) : (e.append D).fcode = e.fcode := rfl

end

end Sys2Proof.Machine
end

