-- ==== Sys2Proof/Laws/Decode.lean ====
section
/-! SUPPORT. The fields of a command word as numbers, and what the decoder answers. -/

namespace Sys2Proof

theorem rsvField_eq_zero (cmd : BitVec 32) : rsvField cmd = 0#28 ↔ cmd.toNat < 16 := by
  constructor
  · intro h
    have := congrArg BitVec.toNat h
    simp [rsvField, Nat.shiftRight_eq_div_pow] at this
    omega
  · intro h
    apply BitVec.eq_of_toNat_eq
    simp [rsvField, Nat.shiftRight_eq_div_pow]
    omega

theorem opField_toNat (cmd : BitVec 32) : (opField cmd).toNat = cmd.toNat % 16 := by simp [opField]

/-- A seed of W bits survives the widest port. -/
@[simp] theorem setWidth_seed {w : Width} (x : Word w) : (x.setWidth 64).setWidth w.bits = x := by
  have hx := x.isLt
  have hw : 2 ^ w.bits ≤ 2 ^ 64 := by cases w <;> decide
  apply BitVec.eq_of_toNat_eq
  rw [BitVec.toNat_setWidth, BitVec.toNat_setWidth, Nat.mod_eq_of_lt (a := x.toNat) (by omega), Nat.mod_eq_of_lt hx]

@[simp] theorem seedOperand_setWidth {w : Width} (x : Word w) : Machine.seedOperand w (x.setWidth 64) = x :=
  setWidth_seed x

section
variable {w : Width} {c : Command w}

/-- What a legal word can be. -/
theorem decode_cases {i : Instr} (h : decode c = .ok i) :
    (c.cmd = 1 ∧ i = .init (c.seedIn.setWidth 64)) ∨ (c.cmd = 2 ∧ i = .ingest c.dataIn) ∨
    (c.cmd = 3 ∧ i = .digest) ∨ (c.cmd = 4 ∧ i = .oneshot (c.seedIn.setWidth 64) c.dataIn) ∨
    (c.cmd = 5 ∧ i = .rdstatus) := by
  unfold decode at h
  split at h
  · cases h
  · rename_i h0
    have h0 := (rsvField_eq_zero c.cmd).1 (by simpa using h0)
    rw [opField_toNat, Nat.mod_eq_of_lt h0] at h
    split at h <;> cases h <;> simp <;> (apply BitVec.eq_of_toNat_eq; simp; assumption)

/-- A word below 16 is decoded by its opcode. -/
theorem decode_lt (h : c.cmd.toNat < 16) : decode c = match c.cmd.toNat with
    | 1 => .ok (.init (c.seedIn.setWidth 64))
    | 2 => .ok (.ingest c.dataIn)
    | 3 => .ok .digest
    | 4 => .ok (.oneshot (c.seedIn.setWidth 64) c.dataIn)
    | 5 => .ok .rdstatus
    | _ => .error .reservedOpcode := by
  rw [decode, if_neg (by simpa using (rsvField_eq_zero c.cmd).2 h), opField_toNat, Nat.mod_eq_of_lt h] <;> rfl

theorem decode_word1 (h : c.cmd = 1) : decode c = .ok (.init (c.seedIn.setWidth 64)) := by
  rw [decode_lt (by simp [h])]; simp [h]

theorem decode_word2 (h : c.cmd = 2) : decode c = .ok (.ingest c.dataIn) := by
  rw [decode_lt (by simp [h])]; simp [h]

theorem decode_word3 (h : c.cmd = 3) : decode c = .ok .digest := by
  rw [decode_lt (by simp [h])]; simp [h]

theorem decode_word4 (h : c.cmd = 4) : decode c = .ok (.oneshot (c.seedIn.setWidth 64) c.dataIn) := by
  rw [decode_lt (by simp [h])]; simp [h]

theorem decode_word5 (h : c.cmd = 5) : decode c = .ok .rdstatus := by
  rw [decode_lt (by simp [h])]; simp [h]

/-- A word with a reserved bit set is illegal, whatever its opcode. -/
theorem decode_ge (h : 16 ≤ c.cmd.toNat) : decode c = .error .reservedBits := by
  rw [decode, if_pos]
  intro h0
  have := (rsvField_eq_zero c.cmd).1 h0
  omega

end

end Sys2Proof
end

