-- ==== Sys2Proof/Laws/Groups.lean ====
section
/-! SUPPORT. The walk over a stream in groups: what `eachGroup` does with one more group, with too few bytes, and with a
stream that arrives in two pieces. -/

namespace Sys2Proof.Machine

theorem blockBytes_pos (w : Width) : 0 < blockBytes w := by cases w <;> decide

theorem blockBytes_eq (w : Width) : blockBytes w = 4 * groupBytes w := by cases w <;> rfl

section
variable {α : Type} {n : Nat} {f : α → List Byte → α}

/-- Fewer bytes than a group: nothing is folded. -/
theorem eachGroup_short {a : α} {T : List Byte} (h : T.length < n) : eachGroup n f a T = (a, T) := by
  simp [eachGroup, Nat.div_eq_of_lt h, foldGroups]

/-- At least one group: the oldest bytes are folded first. -/
theorem eachGroup_long (hn : 0 < n) {a : α} {T : List Byte} (h : n ≤ T.length) :
    eachGroup n f a T = eachGroup n f (f a (T.take n)) (T.drop n) := by
  have hk : T.length / n = (T.drop n).length / n + 1 := by
    rw [List.length_drop, ← Nat.add_div_right _ hn, Nat.sub_add_cancel h]
  rw [eachGroup, hk, foldGroups, eachGroup]

/-- One whole group in front. -/
theorem eachGroup_cons (hn : 0 < n) {a : α} {g T : List Byte} (hg : g.length = n) :
    eachGroup n f a (g ++ T) = eachGroup n f (f a g) T := by
  rw [eachGroup_long hn (by simp [hg]), List.take_left' hg, List.drop_left' hg]

/-- The bytes left over are the end of the stream, fewer than a group. -/
theorem eachGroup_rest (hn : 0 < n) (a : α) (T : List Byte) :
    (eachGroup n f a T).2 = T.drop (T.length - T.length % n) ∧ (eachGroup n f a T).2.length = T.length % n := by
  induction hl : T.length using Nat.strong_induction_on generalizing a T with
  | _ l ih =>
    subst hl
    by_cases h : T.length < n
    · simp [eachGroup_short h, Nat.mod_eq_of_lt h]
    · have h : n ≤ T.length := Nat.le_of_not_lt h
      have hm : (T.drop n).length % n = T.length % n := by
        rw [List.length_drop, ← Nat.mod_eq_sub_mod h]
      obtain ⟨h1, h2⟩ := ih (T.drop n).length (by simp; omega) (f a (T.take n)) (T.drop n) rfl
      rw [eachGroup_long hn h]
      refine ⟨?_, by rw [h2, hm]⟩
      have hle := Nat.mod_le (T.drop n).length n
      rw [h1, hm, List.drop_drop]
      congr 1
      rw [hm, List.length_drop] at hle
      rw [List.length_drop]
      omega

/-- A stream in two pieces: the bytes left over of the first go in front of the second. -/
theorem eachGroup_append (hn : 0 < n) (a : α) (A B : List Byte) :
    eachGroup n f a (A ++ B) = eachGroup n f (eachGroup n f a A).1 ((eachGroup n f a A).2 ++ B) := by
  induction hl : A.length using Nat.strong_induction_on generalizing a A with
  | _ l ih =>
    subst hl
    by_cases h : A.length < n
    · rw [eachGroup_short h]
    · have h : n ≤ A.length := Nat.le_of_not_lt h
      rw [eachGroup_long hn h, ← ih (A.drop n).length (by simp; omega) _ (A.drop n) rfl,
        eachGroup_long hn (T := A ++ B) (by simp; omega)]
      rw [List.take_append_of_le_length h, List.drop_append_of_le_length h]

end

section
variable {w : Width}

/-- `BLOCKS` over a stream that arrives in two pieces (41_block_tail.md R102). -/
theorem blocks_append (v : Lanes w) (A B : List Byte) :
    blocks v (A ++ B) = blocks (blocks v A).1 ((blocks v A).2 ++ B) :=
  eachGroup_append (blockBytes_pos w) v A B

/-- The tail `BLOCKS` leaves (41_block_tail.md R102). -/
theorem blocks_tail (v : Lanes w) (S : List Byte) :
    (blocks v S).2 = S.drop (S.length - S.length % blockBytes w) ∧
      (blocks v S).2.length = S.length % blockBytes w :=
  eachGroup_rest (blockBytes_pos w) v S

/-- Less than one block: the lanes are unchanged. -/
theorem blocks_short (v : Lanes w) {S : List Byte} (h : S.length < blockBytes w) : blocks v S = (v, S) :=
  eachGroup_short h

end

end Sys2Proof.Machine
end

