-- ==== Sys2Proof/Laws/Ops.lean ====
section
/-! SUPPORT. What each shared operation can do, and what a command and a step can do, said once. -/

namespace Sys2Proof.Machine

section
variable {w : Width} {e : Engine w} {p : Port w}

@[simp] theorem raiseFault_mk (c : FaultCode) :
    raiseFault ⟨w, e, p⟩ c = ⟨w, e.record c, p.deliver .faulted (c.word w)⟩ := rfl

@[simp] theorem assertReset_mk : assertReset ⟨w, e, p⟩ = ⟨w, Engine.reset w, p⟩ := rfl

theorem unlessFaulted_live {s : State} {body : State → State} (h : s.engine.fault = false) :
    unlessFaulted s body = body s := by simp [unlessFaulted, h]

theorem unlessFaulted_faulted {s : State} {body : State → State} (h : s.engine.fault = true) :
    unlessFaulted s body = s.respond .ignored 0 := by simp [unlessFaulted, h]

theorem withAccumulator_ready {body : State → State} (h : e.Ready) :
    withAccumulator ⟨w, e, p⟩ body = body ⟨w, e, p⟩ := by
  obtain ⟨-, hv, hb⟩ := h
  simp [withAccumulator, hv, Nat.not_le.mpr hb]

theorem withAccumulator_noInit {body : State → State} (h : e.valid = false) :
    withAccumulator ⟨w, e, p⟩ body = raiseFault ⟨w, e, p⟩ .noInit := by
  simp [withAccumulator, h]

theorem withAccumulator_invariant {body : State → State} (hv : e.valid = true) (hb : blockBytes w ≤ e.bufLen) :
    withAccumulator ⟨w, e, p⟩ body = raiseFault ⟨w, e, p⟩ .invariant := by
  simp [withAccumulator, hv, hb]

/-- The three outcomes of a command on an engine, and the two of a command that writes. -/
inductive Result (e : Engine w) : Instr → Engine w → RStat → Word w → Prop where
  | ignored (i : Instr) (hf : e.fault = true) (hi : i ≠ .rdstatus) : Result e i e .ignored 0
  | faulted (i : Instr) (c : FaultCode) (hf : e.fault = false) (hc : c ≠ .none) :
      Result e i (e.record c) .faulted (c.word w)
  | initialised (x : BitVec 64) (hf : e.fault = false) :
      Result e (.init x) (e.initialise (seedOperand w x)) .done 0
  | appended (D : List Byte) (hr : e.Ready) (hl : e.total.toNat + D.length ≤ Config.maxLength) :
      Result e (.ingest D) (e.append D) .done 0
  | read (i : Instr) (v : Word w) (hi : readsOnly i = true) : Result e i e .value v

/-- Every command answers a next state of the same instance, with one response more, as `Result` says. -/
theorem exec_result (i : Instr) (e : Engine w) (p : Port w) :
    ∃ e' r v, exec i ⟨w, e, p⟩ = .next ⟨w, e', p.deliver r v⟩ ∧ Result e i e' r v := by
  by_cases hf : e.fault = true
  · cases i with
    | rdstatus => exact ⟨e, _, _, rfl, .read _ _ rfl⟩
    | init x => exact ⟨e, _, _, by simp [exec, execInit, unlessFaulted, hf], .ignored _ hf (by simp)⟩
    | ingest D => exact ⟨e, _, _, by simp [exec, execIngest, unlessFaulted, hf], .ignored _ hf (by simp)⟩
    | digest => exact ⟨e, _, _, by simp [exec, execDigest, unlessFaulted, hf], .ignored _ hf (by simp)⟩
    | oneshot x D => exact ⟨e, _, _, by simp [exec, execOneshot, unlessFaulted, hf], .ignored _ hf (by simp)⟩
  · have hf : e.fault = false := by simpa using hf
    cases i with
    | rdstatus => exact ⟨e, _, _, rfl, .read _ _ rfl⟩
    | init x => exact ⟨_, _, _, by simp [exec, execInit, unlessFaulted, hf], .initialised x hf⟩
    | oneshot x D =>
      by_cases hl : Config.maxLength < D.length
      · exact ⟨_, _, _, by simp [exec, execOneshot, unlessFaulted, hf, hl], .faulted _ .lenOvf hf (by simp)⟩
      · exact ⟨_, _, _, by simp [exec, execOneshot, unlessFaulted, hf, hl]; rfl, .read _ _ rfl⟩
    | digest =>
      by_cases hv : e.valid = false
      · exact ⟨_, _, _, by simp [exec, execDigest, unlessFaulted, hf, withAccumulator_noInit hv],
          .faulted _ .noInit hf (by simp)⟩
      · have hv : e.valid = true := by simpa using hv
        by_cases hb : blockBytes w ≤ e.bufLen
        · exact ⟨_, _, _, by simp [exec, execDigest, unlessFaulted, hf, withAccumulator_invariant hv hb],
            .faulted _ .invariant hf (by simp)⟩
        · have hr : e.Ready := ⟨hf, hv, by omega⟩
          exact ⟨_, _, _, by simp [exec, execDigest, unlessFaulted, hf, withAccumulator_ready hr]; rfl, .read _ _ rfl⟩
    | ingest D =>
      by_cases hv : e.valid = false
      · exact ⟨_, _, _, by simp [exec, execIngest, unlessFaulted, hf, withAccumulator_noInit hv],
          .faulted _ .noInit hf (by simp)⟩
      · have hv : e.valid = true := by simpa using hv
        by_cases hb : blockBytes w ≤ e.bufLen
        · exact ⟨_, _, _, by simp [exec, execIngest, unlessFaulted, hf, withAccumulator_invariant hv hb],
            .faulted _ .invariant hf (by simp)⟩
        · have hr : e.Ready := ⟨hf, hv, by omega⟩
          by_cases hl : Config.maxLength < e.total.toNat + D.length
          · exact ⟨_, _, _, by simp [exec, execIngest, unlessFaulted, hf, withAccumulator_ready hr, hl],
              .faulted _ .lenOvf hf (by simp)⟩
          · exact ⟨_, _, _, by simp [exec, execIngest, unlessFaulted, hf, withAccumulator_ready hr, hl],
              .appended D hr (by omega)⟩

/-- A step with a command pending: the decoded command, or the rejection of an illegal word. -/
theorem step_command (c : Command w) (rest : List (HostEvent w)) (rs : List (Response w)) :
    step (instOf e (.command c :: rest) rs) =
      match decode c with
      | .ok i => exec i (instOf e rest rs)
      | .error _ => .next (rejectIllegal (instOf e rest rs)) := rfl

@[simp] theorem step_idle (rs : List (Response w)) : step (instOf e [] rs) = .next (instOf e [] rs) := rfl

@[simp] theorem step_reset (rest : List (HostEvent w)) (rs : List (Response w)) :
    step (instOf e (.reset :: rest) rs) = .next (instOf (Engine.reset w) rest rs) := rfl

@[simp] theorem step_resetDuring (c : Command w) (rest : List (HostEvent w)) (rs : List (Response w)) :
    step (instOf e (.resetDuring c :: rest) rs) = .next (instOf (Engine.reset w) rest rs) := rfl

/-- No steps. -/
theorem run_zero (s : State) : core.run 0 s = .next s := rfl

/-- One step more, from the front. -/
theorem run_succ {s t : State} (h : step s = .next t) (n : Nat) : core.run (n + 1) s = core.run n t := by
  have h : core.step s = .next t := h
  simp only [Host.Core.run, h]

theorem rejectIllegal_live (hf : e.fault = false) :
    rejectIllegal ⟨w, e, p⟩ = ⟨w, e.record .illegal, p.deliver .faulted (FaultCode.illegal.word w)⟩ := by
  rw [rejectIllegal, unlessFaulted_live hf, raiseFault_mk]

theorem rejectIllegal_faulted (hf : e.fault = true) :
    rejectIllegal ⟨w, e, p⟩ = ⟨w, e, p.deliver .ignored 0⟩ := by
  rw [rejectIllegal, unlessFaulted_faulted hf, respond_mk]

end

end Sys2Proof.Machine
end

