-- ==== Sys2Proof/Laws/Invariant.lean ====
section
/-! SUPPORT. Lemmas about the stream an accumulator holds (10_state.md R21). -/

namespace Sys2Proof.Machine

section
variable {w : Width} {e : Engine w}

/-- An INIT leaves an accumulator that holds the empty stream. -/
theorem holds_initialise (x : Word w) : (e.initialise x).Holds x [] where
  total_eq := rfl
  bufLen_eq := by simp [Engine.bufLen]
  buf_eq := by simp
  lanes_eq := by simp [blocks_short (seedLanes x) (S := []) (blockBytes_pos w)]
  seed_eq := rfl

/-- The buffered bytes of a held stream are what its whole blocks leave over. -/
theorem Engine.Holds.buf_tail {x : Word w} {S : List Byte} (h : e.Holds x S) :
    e.buf = (blocks (seedLanes x) S).2 := by
  rw [h.buf_eq, h.bufLen_eq, (blocks_tail _ S).1]

/-- The buffer of a held stream is below its capacity (10_state.md R13). -/
theorem Engine.Holds.bufLen_lt {x : Word w} {S : List Byte} (h : e.Holds x S) : e.bufLen < blockBytes w := by
  rw [h.bufLen_eq]; exact Nat.mod_lt _ (blockBytes_pos w)

/-- An INGEST within the length bound appends to the stream held (42_accumulator.md R132). -/
theorem Engine.Holds.append {x : Word w} {S D : List Byte} (h : e.Holds x S)
    (hl : e.total.toNat + D.length ≤ Config.maxLength) : (e.append D).Holds x (S ++ D) := by
  have hb := blocks_append (seedLanes x) S D
  have hL : (e.append D).lanes = (blocks (seedLanes x) (S ++ D)).1 := by
    rw [append_lanes, h.lanes_eq, h.buf_tail, hb]
  have hB : (e.append D).buf = (blocks (seedLanes x) (S ++ D)).2 := by
    rw [append_buf, h.lanes_eq, h.buf_tail, hb]
  have hT := blocks_tail (seedLanes x) (S ++ D)
  have hn : (e.append D).bufLen = (S ++ D).length % blockBytes w := by rw [Engine.bufLen, hB, hT.2]
  have hb : e.total.toNat + D.length < 2 ^ 64 := Nat.lt_of_le_of_lt hl (by decide)
  refine ⟨?_, hn, ?_, hL, h.seed_eq⟩
  · rw [append_total, BitVec.toNat_add, BitVec.toNat_ofNat, Nat.add_mod_mod, Nat.mod_eq_of_lt hb, h.total_eq]
    simp
  · rw [hB, hn, hT.1]

end

end Sys2Proof.Machine
end

