-- ==== Sys2Proof/Laws/PerInstr.lean ====
section
/-! SUPPORT. A statement about the commands as syntax, one lemma per constructor. -/

namespace Sys2Proof.Laws.WordIsLegal

/-- The command word of the instruction is its row of the opcode map: reserved bits zero and an assigned opcode
(30_encoding.md R52, R57). -/
def Statement (i : Instr) : Prop :=
  rsvField i.word = 0 ∧ 1 ≤ (opField i.word).toNat ∧ (opField i.word).toNat ≤ 5

theorem init (seed : BitVec 64) : Statement (.init seed) := by simp only [Statement, Instr.word]; decide

theorem ingest (data : List Byte) : Statement (.ingest data) := by simp only [Statement, Instr.word]; decide

theorem digest : Statement .digest := by simp only [Statement, Instr.word]; decide

theorem oneshot (seed : BitVec 64) (data : List Byte) : Statement (.oneshot seed data) := by
  simp only [Statement, Instr.word]; decide

theorem rdstatus : Statement .rdstatus := by simp only [Statement, Instr.word]; decide

end Sys2Proof.Laws.WordIsLegal
end

