-- ==== Sys2Proof/Tests/Slice0.lean ====
section
/-! SUPPORT. Tests of single definitions and single steps against the values of 95_test_vectors.md, and for every
obligation with hypotheses a concrete case that meets them. -/

open Sys2Proof Sys2Proof.Machine

namespace Sys2Proof.Tests

set_option maxRecDepth 20000

/-! ## Helpers -/

/-- What an outcome shows: the last response's code and value, and STATUS afterwards. -/
def shown (o : Host.Outcome State Fault Refusal) : Option (Nat × Nat × Nat) :=
  match o with
  | .next t => t.port.responses.getLast?.map fun r => (r.rstat.code.toNat, r.rvalue.toNat, t.engine.status.toNat)
  | .fault _ => none
  | .refused _ => none

/-- BUFLEN, TOTAL and the lanes after an outcome. -/
def held (o : Host.Outcome State Fault Refusal) : Option (Nat × Nat × List Nat) :=
  match o with
  | .next t =>
    let v := t.engine.lanes
    some (t.engine.bufLen, t.engine.total.toNat, [v.v0.toNat, v.v1.toNat, v.v2.toNat, v.v3.toNat])
  | .fault _ => none
  | .refused _ => none

/-- One command on an engine with nothing else pending. -/
def perform (w : Width) (e : Engine w) (i : Instr) : Host.Outcome State Fault Refusal := exec i (instOf e [] [])

/-- One command word, its ports at zero and empty, presented to an engine. -/
def present (w : Width) (e : Engine w) (word : BitVec 32) : Host.Outcome State Fault Refusal :=
  step (instOf e [.command ⟨word, 0, []⟩] [])

/-- An engine after INIT with seed 0. -/
def fresh (w : Width) : Engine w := (Engine.reset w).initialise 0

/-- An engine after INIT with seed 0 and INGEST of `PAT(0, n)`. -/
def filled (w : Width) (n : Nat) : Engine w := (fresh w).append (pat 0 n)

/-- An engine in which a fault has been recorded. -/
def faulty (w : Width) : Engine w := (Engine.reset w).record .illegal

/-- An engine with `VALID = 1` and the given buffer and total. -/
def engineWith (w : Width) (buf : List Byte) (total : BitVec 64) : Engine w := { fresh w with buf := buf, total := total }

/-- A byte sequence longer than any command can carry. -/
def tooLong : List Byte := List.replicate (2 ^ 64) 0

theorem tooLong_length : tooLong.length = 2 ^ 64 := List.length_replicate

/-! ## Well-formedness: an ill-formed term for each check -/

/-- 30_encoding.md R53: a seed that does not fit `SEED_IN`. -/
theorem test_init_seed_refused : (Instr.init (2 ^ 32)).wf .w32 = false := by decide
theorem test_oneshot_seed_refused : (Instr.oneshot (2 ^ 32) []).wf .w32 = false := by decide

/-- 20_memory.md R31: a data operand longer than `2^64 - 1`. -/
theorem test_ingest_length_refused : (Instr.ingest tooLong).wf .w64 = false := by
  simp [Instr.wf, dataFits, tooLong_length, Config.maxLength]
theorem test_oneshot_length_refused : (Instr.oneshot 0 tooLong).wf .w64 = false := by
  simp [Instr.wf, dataFits, tooLong_length, Config.maxLength]

theorem test_widest_operands_accepted :
    (Instr.init (2 ^ 32 - 1)).wf .w32 = true ∧ (Instr.init (2 ^ 64 - 1)).wf .w64 = true ∧
    (Instr.oneshot (2 ^ 32 - 1) [1]).wf .w32 = true ∧ (Instr.ingest [0xFF]).wf .w32 = true := by decide

/-! ## Decoding: words written out bit by bit from 30_encoding.md R51 and R57 (RSV in 28 bits, then OP in 4) -/

theorem test_decode_init : decode (w := .w64) ⟨0b0000000000000000000000000000#28 ++ 0b0001#4, 1234, [1]⟩ =
    .ok (.init 1234) := by decide
theorem test_decode_ingest : decode (w := .w32) ⟨0b0000000000000000000000000000#28 ++ 0b0010#4, 7, [97, 98]⟩ =
    .ok (.ingest [97, 98]) := by decide
theorem test_decode_digest : decode (w := .w64) ⟨0b0000000000000000000000000000#28 ++ 0b0011#4, 7, [97]⟩ =
    .ok .digest := by decide
theorem test_decode_oneshot : decode (w := .w32) ⟨0b0000000000000000000000000000#28 ++ 0b0100#4, 0xFFFFFFFF, [97]⟩ =
    .ok (.oneshot 0xFFFFFFFF [97]) := by decide
theorem test_decode_rdstatus : decode (w := .w64) ⟨0b0000000000000000000000000000#28 ++ 0b0101#4, 7, [97]⟩ =
    .ok .rdstatus := by decide
theorem test_decode_illegal :
    [0x00000000, 0x00000006, 0x0000000F, 0x00000013, 0x00000015, 0x80000003].map
      (fun word => decode (w := .w64) ⟨word, 0, []⟩) =
    [.error .reservedOpcode, .error .reservedOpcode, .error .reservedOpcode, .error .reservedBits,
      .error .reservedBits, .error .reservedBits] := by decide
theorem test_decodeTableWord :
    [0, 1, 2, 3, 4, 5, 6].map (decodeTableWord 32) =
    [none, some (.init 0), some (.ingest []), some .digest, some (.oneshot 0 []), some .rdstatus, none] := by decide

/-- The first command after reset, presented as the host presents it (3.10: `RDSTATUS` answers 0x20, `DIGEST` NOINIT). -/
theorem test_withFetchWord :
    shown (step (State.reset.withFetchWord 32 5)) = some (1, 0x20, 0x20) ∧
    shown (step (State.reset.withFetchWord 32 3)) = some (2, 2, 0x2A) := by decide

/-- 30_encoding.md R61, R62: lines of text and the transactions they stand for. -/
theorem test_assemble_init : assembleLine .w64 7 "  init  0x4D2 ; a comment".toList = some [⟨1, 1234, []⟩] := by decide
theorem test_assemble_oneshot : assembleLine .w32 7 "ONESHOT 5, PAT(3, 6)".toList = some [⟨4, 5, [3, 4, 5]⟩] := by decide
theorem test_assemble_hash :
    assembleLine .w32 7 "HASH 1, b\"a\"".toList = some [⟨1, 1, []⟩, ⟨2, 0, [97]⟩, ⟨3, 0, []⟩] := by decide
theorem test_assemble_raw : assembleLine .w32 7 ".cmd 0x80000003".toList = some [⟨0x80000003, 0, []⟩] := by decide
theorem test_assemble_wide_seed_refused : assembleLine .w32 7 "INIT 0x100000000".toList = none := by decide

/-! ## Datapath functions (95_test_vectors.md 3.1 to 3.6, 3.11) -/

theorem test_round :
    round (w := .w32) 0x9E3779B1 0x03020100 = 0xBB1D9B6D ∧
    round (w := .w64) 0x9E3779B185EBCA87 0x0706050403020100 = 0x9A65728D571AF740 := by decide
theorem test_mergeRound : mergeRound 0x85EBCA77C2B2AE63 0x9E3779B185EBCA87 = 0x89C5B93785C9F418 := by decide
theorem test_mergeLanes :
    mergeLanes (seedLanes (w := .w32) 0) = 0x57694B34 ∧ mergeLanes (w := .w32) ⟨0, 0, 0, 1⟩ = 0x00040000 ∧
    mergeLanes (seedLanes (w := .w64) 0) = 0x5AE1634AE2A70C06 ∧
    mergeLanes (w := .w64) ⟨0, 0, 0, 1⟩ = 0x386F7CD56A727752 := by decide
theorem test_avalanche :
    avalanche (w := .w32) 0x80000000 = 0x22CC2014 ∧ avalanche (w := .w64) 0x8000000000000000 = 0x21BCCFD08328A27E := by
  decide
theorem test_seedLanes :
    seedLanes (w := .w32) 0x4D2 = ⟨0x242348FA, 0x85EBCF49, 0x000004D2, 0x61C88B21⟩ ∧
    seedLanes (w := .w64) 0x9E3779B185EBCA87 =
      ⟨0xFF21A1A033AC805D, 0x60EA27EEADC0B5D6, 0x9E3779B185EBCA87, 0⟩ := by decide
theorem test_seedShort :
    seedShort (w := .w32) 0xFFFFFFFF = 0x165667B0 ∧ seedShort (w := .w64) 0x4D2 = 0x27D4EB2F16566C97 := by decide
theorem test_block32 :
    block (seedLanes (w := .w32) 1234) (pat 16 32) = ⟨0xFBE6EB05, 0x05F19FD5, 0xD87FEEDE, 0xE28AA3AE⟩ := by decide
theorem test_block64 :
    block (seedLanes (w := .w64) 1234) (pat 32 64) =
      ⟨0x654BBC4A8339F0EE, 0x3469CC446291B7B6, 0x3BBD40FB0B6FE794, 0xA912CAA670B378E3⟩ := by decide
theorem test_tail_steps64 :
    t64x8 0x27D4EB2F165667C5 [0, 1, 2, 3, 4, 5, 6, 7] = 0x79FD9AA38485FF74 ∧
    t64x4 0x27D4EB2F165667C5 [0, 1, 2, 3] = 0xE3B257E823FBE454 ∧
    t64x1 0x27D4EB2F165667C5 0x80 = 0x1BF28711D1EF7D7B := by decide
theorem test_tail_steps32 :
    t32x4 0x165667B1 [0, 1, 2, 3] = 0xC0A33573 ∧ t32x1 0x165667B1 0x80 = 0x7DE41E4C := by decide
theorem test_finalize_long_length :
    finalize (w := .w32) 0 ⟨0xF817BCCB, 0x0222719B, 0xD4B0C0A4, 0xDEBB7574⟩ 4294967312 [] = 0xB72837F4 := by decide

/-- 1.1 and 2.2: the empty input. -/
theorem test_digest_empty :
    oneshotDigest (w := .w32) 0 [] = 0x02CC5D05 ∧ oneshotDigest (w := .w64) 0 [] = 0xEF46DB3751D8E999 := by decide
/-- 3.7 and 3.8: a long input whose tail has whole groups and single bytes. -/
theorem test_digest_long32 : oneshotDigest (w := .w32) 0 (pat 0 40) = 0xD6A6CF02 := by decide
theorem test_digest_long64 : oneshotDigest (w := .w64) 1234 (pat 0 47) = 0x123813F9DDE08861 := by decide

/-! ## One step of each command -/

/-- 3.10: `INIT 0` answers DONE and STATUS reads 0x01 or 0x21; 3.4: the lanes of seed 1234. -/
theorem test_init :
    shown (perform .w32 (Engine.reset .w32) (.init 0)) = some (0, 0, 0x01) ∧
    shown (perform .w64 (Engine.reset .w64) (.init 0)) = some (0, 0, 0x21) := by decide
theorem test_init_lanes : held (perform .w64 (filled .w64 3) (.init 1234)) =
    some (0, 0, [0x60EA27EEADC0BAA8, 0xC2B2AE3D27D4F021, 0x4D2, 0x61C8864E7A143A4B]) := by decide

/-- 3.9, W = 32, n = 21, chunks 7 and 14; 3.10: LENOVF with `TOTAL = 2^64 - 1`. -/
theorem test_ingest : held (perform .w32 (filled .w32 7) (.ingest (pat 7 21))) =
    some (5, 21, [0xF817BCCB, 0x0222719B, 0xD4B0C0A4, 0xDEBB7574]) := by decide
theorem test_ingest_lenOvf :
    shown (perform .w64 (engineWith .w64 [1, 2] (2 ^ 64 - 1)) (.ingest [97])) = some (2, 3, 0x2F) := by decide

/-- 3.9, W = 32, n = 21: the digest; 3.10: `VALID = 1` with `BUFLEN = BS` answers INVARIANT. -/
theorem test_digest : shown (perform .w32 (filled .w32 21) .digest) = some (1, 0xC6BAB491, 0x01) := by decide
theorem test_digest_invariant :
    shown (perform .w32 (engineWith .w32 (pat 0 16) 16) .digest) = some (2, 4, 0x13) := by decide

/-- 1.2: `b"some bytes"` with seed 1234, before any INIT; 2.2: the 39-byte text at W = 32. -/
theorem test_oneshot : shown (perform .w64 (Engine.reset .w64)
    (.oneshot 1234 [0x73, 0x6F, 0x6D, 0x65, 0x20, 0x62, 0x79, 0x74, 0x65, 0x73])) =
      some (1, 0xEAB55659A496D78B, 0x20) := by decide
theorem test_oneshot_text :
    (asciiBytes "Nobody inspects the spammish repetition".toList).map
      (fun D => shown (perform .w32 (Engine.reset .w32) (.oneshot 0 D))) = some (some (1, 0xE2293B2F, 0x00)) := by decide

/-- 3.10: RDSTATUS after `.cmd 0x0` is performed and reads 0x26. -/
theorem test_rdstatus : shown (perform .w64 (faulty .w64) .rdstatus) = some (1, 0x26, 0x26) := by decide

/-- 3.10: illegal words, on an engine without and with a fault; an INIT on a faulted engine. -/
theorem test_illegal :
    shown (present .w64 (fresh .w64) 0x80000003) = some (2, 1, 0x27) ∧
    shown (present .w32 (faulty .w32) 0x00000015) = some (3, 0, 0x06) ∧
    shown (present .w32 (faulty .w32) 0x00000001) = some (3, 0, 0x06) := by decide

/-! ## Witnesses: every obligation with hypotheses, a case that meets them -/

theorem witness_DecodeOfEncodeIsTheCommand :
    (Instr.init (2 ^ 64 - 1)).wf .w64 = true ∧ (Instr.init (2 ^ 32 - 1)).wf .w32 = true ∧
    (Instr.ingest [0, 255]).wf .w32 = true ∧ Instr.digest.wf .w32 = true ∧
    (Instr.oneshot (2 ^ 32 - 1) [0]).wf .w32 = true ∧ Instr.rdstatus.wf .w64 = true := by decide

theorem witness_EncodeOfDecodeKeepsTheWord :
    decode (w := .w32) ⟨1, 0xFFFFFFFF, [9]⟩ = .ok (.init 0xFFFFFFFF) ∧ [(9 : Byte)].length ≤ Config.maxLength := by decide

theorem zero_word_is_illegal (w : Width) : decode (w := w) ⟨0, 0, []⟩ = .error .reservedOpcode := by
  cases w <;> decide

theorem witness_OnlyFiveWordsAreLegal :
    (∀ i, decode (w := .w64) ⟨0, 0, []⟩ ≠ .ok i) ∧ (fresh .w64).fault = false ∧ (faulty .w64).fault = true := by
  refine ⟨fun i h => ?_, by decide, by decide⟩
  rw [zero_word_is_illegal] at h
  cases h

theorem witness_StepPerformsTheDecodedCommand :
    decode (w := .w32) ⟨4, 5, [1]⟩ = .ok (.oneshot 5 [1]) := by decide

theorem witness_StepPerformsThePresentedWord :
    decodeTableWord 32 1 = some (.init 0) ∧ decodeTableWord 32 5 = some .rdstatus := by decide

theorem witness_DispatchRule :
    (faulty .w32).fault = true ∧ (fresh .w32).fault = false ∧
    (0#32 ≠ 5 ∧ 1#32 ≠ 5 ∧ 4#32 ≠ 5 ∧ 6#32 ≠ 5) ∧
    ¬(1 ≤ (0#32).toNat ∧ (0#32).toNat ≤ 5) ∧ ¬(1 ≤ (6#32).toNat ∧ (6#32).toNat ≤ 5) ∧
    ¬(1 ≤ (0xFFFFFFFF#32).toNat ∧ (0xFFFFFFFF#32).toNat ≤ 5) := by decide

theorem witness_AfterResetRule :
    (Engine.reset .w32).valid = false ∧ (Engine.reset .w32).fault = false ∧ (Engine.reset .w32).fcode = .none ∧
    ([] : List Byte).length ≤ Config.maxLength ∧ ¬(1 ≤ (6#32).toNat ∧ (6#32).toNat ≤ 5) := by decide

/-- Two engines before INIT that differ in every element that reset gives no value. -/
theorem witness_ResetValuesAreUnobservable :
    let f : Engine .w32 := ⟨⟨1, 2, 3, 4⟩, 5, [6], 7, false, false, .none⟩
    (Engine.reset .w32).valid = false ∧ f.valid = false ∧ (Engine.reset .w32).fault = f.fault ∧
    (Engine.reset .w32).fcode = f.fcode ∧ Engine.reset .w32 ≠ f := by decide

theorem witness_InitRule : (filled .w64 40).fault = false ∧ (faulty .w64).fault = true := by decide

/-- The clauses of INGEST at their boundaries: no accumulator; `BUFLEN = BS`; `TOTAL + len(D) = 2^64`;
`TOTAL + len(D) = 2^64 - 1` with `BUFLEN = BS - 1`; a chunk that fills no block; no data. -/
theorem witness_IngestRule :
    ((Engine.reset .w32).fault = false ∧ (Engine.reset .w32).valid = false) ∧
    (let e := engineWith .w32 (pat 0 16) 16;
      e.fault = false ∧ e.valid = true ∧ blockBytes .w32 ≤ e.bufLen) ∧
    (let e := engineWith .w32 (pat 0 15) (2 ^ 64 - 1);
      e.fault = false ∧ e.valid = true ∧ e.bufLen < blockBytes .w32 ∧ 2 ^ 64 - 1 < e.total.toNat + [(1 : Byte)].length) ∧
    (let e := engineWith .w32 (pat 0 15) (2 ^ 64 - 2);
      e.fault = false ∧ e.valid = true ∧ e.bufLen < blockBytes .w32 ∧ e.total.toNat + [(1 : Byte)].length ≤ 2 ^ 64 - 1) ∧
    (let e := engineWith .w32 (pat 0 14) 14;
      e.bufLen + [(1 : Byte)].length < blockBytes .w32 ∧ e.total.toNat + ([] : List Byte).length ≤ 2 ^ 64 - 1) := by decide

theorem witness_DigestRule :
    ((Engine.reset .w64).fault = false ∧ (Engine.reset .w64).valid = false) ∧
    (let e := engineWith .w64 (pat 0 32) 32;
      e.fault = false ∧ e.valid = true ∧ blockBytes .w64 ≤ e.bufLen) ∧
    (let e := filled .w64 31;
      e.fault = false ∧ e.valid = true ∧ e.bufLen < blockBytes .w64) ∧
    (let e := fresh .w64;
      e.fault = false ∧ e.valid = true ∧ e.total = 0 ∧ e.buf = []) := by decide

theorem witness_OneshotRule :
    (Engine.reset .w64).fault = false ∧ 2 ^ 64 - 1 < tooLong.length ∧ [(1 : Byte)].length ≤ 2 ^ 64 - 1 := by
  rw [tooLong_length]; decide

theorem witness_RdstatusRule : (faulty .w32).fault = true ∧ Instr.init 0 ≠ .rdstatus ∧ Instr.digest ≠ .rdstatus := by decide

theorem filled_ready : (filled .w32 31).Ready := by unfold Engine.Ready; decide

theorem witness_ReadyEngineNeverFaults :
    (filled .w32 31).Ready ∧ (Instr.ingest [1, 2]).wf .w32 = true ∧ (Instr.oneshot 1 []).wf .w32 = true ∧
    ∀ D, Instr.ingest [1, 2] = .ingest D → (filled .w32 31).total.toNat + D.length ≤ Config.maxLength := by
  refine ⟨filled_ready, by decide, by decide, fun D h => ?_⟩
  cases h
  decide

theorem witness_FaultEntryWritesOnlyTheStatus :
    (Engine.reset .w32).fault = false ∧ ((Engine.reset .w32).record .noInit).fault = true ∧
    step (instOf (Engine.reset .w32) [.command ⟨3, 0, []⟩] []) =
      .next (instOf ((Engine.reset .w32).record .noInit) [] [⟨.faulted, 2⟩]) := ⟨by decide, by decide, rfl⟩

/-- An illegal word of each kind, and the highest and lowest legal ones. -/
theorem witness_IllegalRule :
    (fresh .w32).fault = false ∧ (0x10#32).extractLsb' 4 28 ≠ 0 ∧ (0#32).extractLsb' 0 4 = 0 ∧
    6 ≤ ((6#32).extractLsb' 0 4).toNat ∧
    ¬((5#32).extractLsb' 4 28 ≠ 0 ∨ (5#32).extractLsb' 0 4 = 0 ∨ 6 ≤ ((5#32).extractLsb' 0 4).toNat) := by decide

theorem witness_NoInitRule : (Engine.reset .w64).fault = false ∧ (Engine.reset .w64).valid = false := by decide

theorem witness_LenOvfRule :
    (engineWith .w64 (pat 0 31) (2 ^ 64 - 1)).Ready ∧
    2 ^ 64 - 1 < (engineWith .w64 (pat 0 31) (2 ^ 64 - 1)).total.toNat + [(1 : Byte)].length ∧
    (Engine.reset .w64).fault = false ∧ 2 ^ 64 - 1 < tooLong.length := by
  refine ⟨by unfold Engine.Ready; decide, by decide, by decide, ?_⟩
  rw [tooLong_length]; decide

theorem witness_FaultPriority :
    ((faulty .w32).fault = true ∧ 0#32 ≠ 5) ∧
    ((Engine.reset .w32).fault = false ∧ ¬(1 ≤ (0#32).toNat ∧ (0#32).toNat ≤ 5) ∧ (Engine.reset .w32).valid = false) ∧
    (let e := engineWith .w32 (pat 0 16) (2 ^ 64 - 1);
      e.fault = false ∧ e.valid = true ∧ blockBytes .w32 ≤ e.bufLen) ∧
    (let e := engineWith .w32 (pat 0 15) (2 ^ 64 - 1);
      e.fault = false ∧ e.valid = true ∧ e.bufLen < blockBytes .w32 ∧ 2 ^ 64 - 1 < e.total.toNat + [(1 : Byte)].length) ∧
    2 ^ 64 - 1 < tooLong.length := by
  rw [tooLong_length]; decide

theorem witness_FaultedEngineIgnoresCommands :
    ((fresh .w64).record .lenOvf).fault = true ∧ 1#32 ≠ 5 := by decide

theorem witness_OnlyResetClearsAFault : (faulty .w64).fault = true := by decide

theorem witness_SafeRunsAnswerDoneOrValue :
    SafeRun 2 (instOf (Engine.reset .w64) ([⟨1, 9, []⟩, ⟨5, 0, []⟩].map .command) [])
      (instOf ((Engine.reset .w64).initialise 9) ([].map .command) [⟨.done, 0⟩, ⟨.value, 0x21⟩]) := ⟨rfl, rfl⟩

theorem witness_ReadingCommandsWriteNoAccumulator :
    readsOnly .digest = true ∧ exec .digest ⟨.w32, Engine.reset .w32, ⟨[], []⟩⟩ =
      .next ⟨.w32, (Engine.reset .w32).record .noInit, ⟨[], [⟨.faulted, 2⟩]⟩⟩ ∧
    readsOnly .rdstatus = true ∧ exec .rdstatus ⟨.w32, fresh .w32, ⟨[], []⟩⟩ =
      .next ⟨.w32, fresh .w32, ⟨[], [⟨.value, 1⟩]⟩⟩ ∧
    readsOnly (.oneshot 0 []) = true ∧ exec (.oneshot 0 []) ⟨.w32, fresh .w32, ⟨[], []⟩⟩ =
      .next ⟨.w32, fresh .w32, ⟨[], [⟨.value, 0x02CC5D05⟩]⟩⟩ := ⟨rfl, rfl, rfl, rfl, rfl, rfl⟩

theorem witness_WritingCommandsFrame :
    exec (.init 0) ⟨.w32, filled .w32 3, ⟨[], []⟩⟩ =
      .next ⟨.w32, (filled .w32 3).initialise 0, ⟨[], [⟨.done, 0⟩]⟩⟩ ∧
    exec (.ingest [9]) ⟨.w32, filled .w32 3, ⟨[], []⟩⟩ =
      .next ⟨.w32, (filled .w32 3).append [9], ⟨[], [⟨.done, 0⟩]⟩⟩ ∧
    (filled .w32 3).bufLen + [(9 : Byte)].length < blockBytes .w32 ∧
    exec (.ingest [9]) ⟨.w32, Engine.reset .w32, ⟨[], []⟩⟩ =
      .next ⟨.w32, (Engine.reset .w32).record .noInit, ⟨[], [⟨.faulted, 2⟩]⟩⟩ := ⟨rfl, rfl, by decide, rfl⟩

/-- VALID set by INIT; a fault raised; a fault kept. -/
theorem witness_StatusBitsChangeOnlyAsRuled :
    (Engine.reset .w64).valid = false ∧ shown (perform .w64 (Engine.reset .w64) (.init 0)) = some (0, 0, 0x21) ∧
    shown (present .w64 (Engine.reset .w64) 0) = some (2, 1, 0x26) ∧
    shown (present .w64 (faulty .w64) 1) = some (3, 0, 0x26) := by decide

/-- Each clause: a performed INGEST, a performed INIT, an INGEST that faults, and both phases. -/
theorem witness_TotalCountsTheBytesIngested :
    step (instOf (filled .w32 16) [.command ⟨2, 0, [7]⟩] []) = .next (instOf ((filled .w32 16).append [7]) [] [⟨.done, 0⟩]) ∧
    step (instOf (filled .w32 16) [.command ⟨1, 0, []⟩] []) = .next (instOf (fresh .w32) [] [⟨.done, 0⟩]) ∧
    step (instOf (Engine.reset .w32) [.command ⟨2, 0, [7]⟩] []) =
      .next (instOf ((Engine.reset .w32).record .noInit) [] [⟨.faulted, 2⟩]) ∧
    2#32 ≠ 1 ∧ (filled .w32 16).large = true ∧ (filled .w32 15).large = false :=
  ⟨rfl, rfl, rfl, by decide, by decide, by decide⟩

/-- The stream `PAT(0, 39)` is held, with the values of 95_test_vectors.md 3.9 (W = 64, n = 39). -/
theorem filled_inv : (filled .w64 39).Inv :=
  ⟨by decide, fun _ => ⟨pat 0 39, by decide, by decide, by decide, by decide, by decide⟩⟩

theorem filled_short_inv : (filled .w64 31).Inv :=
  ⟨by decide, fun _ => ⟨pat 0 31, by decide, by decide, by decide, by decide, by decide⟩⟩

theorem witness_EveryStepKeepsTheInvariant :
    (instOf (filled .w64 39) [.command ⟨2, 0, [1]⟩] []).Inv ∧
    ∃ t, step (instOf (filled .w64 39) [.command ⟨2, 0, [1]⟩] []) = .next t := ⟨filled_inv, _, rfl⟩

theorem witness_AccumulatorHoldsTheStream :
    (filled .w64 39).fault = false ∧ [[1, 2], [], [(3 : Byte)]].flatten.length ≤ Config.maxLength := by decide

theorem witness_InvariantRulesOutTheInvariantFault :
    (filled .w64 39).Inv ∧ (filled .w64 39).valid = true ∧ (filled .w64 39).fault = false ∧
    (filled .w64 31).Inv ∧ (filled .w64 31).valid = true ∧ (filled .w64 31).large = false ∧
    (∃ t, exec .digest ⟨.w64, filled .w64 39, ⟨[], []⟩⟩ = .next t) ∧
    ∃ t, exec (.ingest [1]) ⟨.w64, filled .w64 31, ⟨[], []⟩⟩ = .next t :=
  ⟨filled_inv, by decide, by decide, filled_short_inv, by decide, by decide, ⟨_, rfl⟩, ⟨_, rfl⟩⟩

theorem witness_ChunkInvariance :
    (fresh .w32).fault = false ∧ (pat 0 33).length ≤ Config.maxLength ∧
    [pat 0 5, pat 5 16, [], pat 16 33].flatten = pat 0 33 := by decide

theorem witness_IdempotentDigest :
    (filled .w32 31).Ready ∧ ∀ i ∈ [Instr.rdstatus, .oneshot 1 [2], .digest], readsOnly i = true ∧ i.wf .w32 = true :=
  ⟨filled_ready, by decide⟩

theorem witness_DigestDoesNotDisturbTheStream :
    (fresh .w64).fault = false ∧ (pat 0 31 ++ pat 31 40).length ≤ Config.maxLength := by decide

theorem witness_HashAnswersOneshotWhateverTheHistory :
    (pat 0 7).length ≤ Config.maxLength ∧ (filled .w64 3).fault = false := by decide

theorem witness_EdgeCaseDigests : (fresh .w32).fault = false ∧ (pat 0 7).length ≤ Config.maxLength := by decide

theorem witness_RotationRule :
    (0 < 1 ∧ 1 < Width.bits .w32) ∧ (0 < 31 ∧ 31 < Width.bits .w32) ∧ (0 < 63 ∧ 63 < Width.bits .w64) := by decide

theorem witness_LittleEndianRule :
    (pat 0 4).length ≤ groupBytes .w32 ∧ (pat 0 8).length ≤ groupBytes .w64 ∧ ([] : List Byte).length ≤ groupBytes .w32 := by
  decide

theorem witness_BlockRule : (pat 0 4).length = groupBytes .w32 ∧ (pat 0 8).length = groupBytes .w64 := by decide

theorem witness_BlocksRule : (pat 0 16).length = blockBytes .w32 ∧ (pat 0 15).length < blockBytes .w32 := by decide

theorem witness_Tail64Rule :
    (pat 0 8).length = 8 ∧ ((pat 0 4).length = 4 ∧ (pat 0 3).length < 4) ∧ ((1 : Byte) :: pat 0 2).length < 4 := by decide

theorem witness_Tail32Rule : (pat 0 4).length = 4 ∧ ((1 : Byte) :: pat 0 2).length < 4 := by decide

theorem witness_AddLengthRule : 16 ≤ 16 := by decide

theorem witness_FinalizeRule : blockBytes .w64 ≤ 32 ∧ 31 < blockBytes .w64 := by decide

theorem witness_PseudoCommandsAndPattern : 2 < 258 - 255 ∧ (pat 255 258)[2]? = some 1 := by decide

end Sys2Proof.Tests
end

section
/-! PROOFS. 00_scope.md: the derived parameters (R3), the rotation (R5) and the little-endian sum (R6). The rotation is
tied to the library's `BitVec.rotateLeft` and the sum to `Nat.ofDigits`, so that their lemmas apply. -/

namespace Sys2Proof.Machine

/-! ## The derived parameters -/

theorem bits_eq_groupBytes (w : Width) : 8 * groupBytes w = w.bits := by cases w <;> rfl

theorem two_pow_bufLenBits (w : Width) : 2 ^ bufLenBits w = blockBytes w := by cases w <;> rfl

/-! ## The rotation -/

section
variable {w : Width} {r : Nat}

/-- Below `W`, `rotl` is the library's rotation, which takes its amount modulo `W`. -/
theorem rotl_eq_rotateLeft (x : Word w) (hr : r < w.bits) : rotl x r = x.rotateLeft r := by
  rw [rotl, BitVec.rotateLeft_def, Nat.mod_eq_of_lt hr]

theorem toNat_rotl (x : Word w) (r : Nat) :
    (rotl x r).toNat = ((x.toNat <<< r) ||| (x.toNat >>> (w.bits - r))) % 2 ^ w.bits := by
  have hright : x.toNat >>> (w.bits - r) < 2 ^ w.bits := (Nat.shiftRight_le _ _).trans_lt x.isLt
  rw [rotl, BitVec.toNat_or, BitVec.toNat_shiftLeft, BitVec.toNat_ushiftRight, Nat.or_mod_two_pow,
    Nat.mod_eq_of_lt hright]

/-- The low `r` bits come round from the top of the operand; the others move up by `r`. -/
theorem getLsbD_rotl (x : Word w) (hr : r < w.bits) {i : Nat} (hi : i < w.bits) :
    (rotl x r).getLsbD i = x.getLsbD ((i + (w.bits - r)) % w.bits) := by
  rw [rotl_eq_rotateLeft x hr, BitVec.getLsbD_rotateLeft, Nat.mod_eq_of_lt hr]
  by_cases hir : i < r
  · have hsrc : (i + (w.bits - r)) % w.bits = w.bits - r + i := by
      rw [Nat.mod_eq_of_lt (by omega), Nat.add_comm]
    simp [hir, hsrc]
  · have hsrc : (i + (w.bits - r)) % w.bits = i - r := by
      rw [show i + (w.bits - r) = i - r + w.bits by omega, Nat.add_mod_right, Nat.mod_eq_of_lt (by omega)]
    simp [hir, hi, hsrc]

end

/-! ## The little-endian sum -/

/-- `le_n` reads the bytes as digits to base 256, the least significant first. -/
theorem leNat_eq_ofDigits (g : List Byte) : leNat g = Nat.ofDigits 256 (g.map BitVec.toNat) := by
  induction g with
  | nil => rfl
  | cons b g ih => rw [leNat, ih, List.map_cons, Nat.ofDigits_cons]

theorem leNat_eq_sum (g : List Byte) :
    leNat g = ((List.finRange g.length).map fun i => (g.get i).toNat * 2 ^ (8 * i.val)).sum := by
  rw [leNat_eq_ofDigits, Nat.ofDigits_eq_sum_mapIdx]
  exact congrArg List.sum (List.ext_getElem (by simp) fun i _ _ => by simp [Nat.pow_mul])

theorem leNat_lt (g : List Byte) : leNat g < 2 ^ (8 * g.length) := by
  have hdigits : ∀ d ∈ g.map BitVec.toNat, d < 256 := by
    rintro _ hd
    obtain ⟨b, -, rfl⟩ := List.mem_map.mp hd
    exact b.isLt
  have hlt := Nat.ofDigits_lt_base_pow_length (by decide) hdigits
  rwa [← leNat_eq_ofDigits, List.length_map, show 256 = 2 ^ 8 from rfl, ← Nat.pow_mul] at hlt

/-- A group of at most `W / 8` bytes fits the word, so its zero-extension keeps it. -/
theorem toNat_leWord {w : Width} {g : List Byte} (hg : g.length ≤ groupBytes w) : (leWord w g).toNat = leNat g := by
  have hbits : 8 * g.length ≤ w.bits := bits_eq_groupBytes w ▸ Nat.mul_le_mul_left 8 hg
  have hlt : leNat g < 2 ^ w.bits := (leNat_lt g).trans_le (Nat.pow_le_pow_right (by decide) hbits)
  rw [leWord, BitVec.toNat_ofNat, Nat.mod_eq_of_lt hlt]

/-! ## The obligations -/

/-- Settles O44, by the rules of `rotl` as a number and bit by bit; the rotations used are literals. -/
theorem rotationRule : Obligations.RotationRule := by
  unfold Obligations.RotationRule
  refine ⟨fun w x r _ hr => ⟨toNat_rotl x r, fun i hi => getLsbD_rotl x hr hi⟩, ?_, by decide, by decide⟩
  intro w
  cases w <;> decide

/-- Settles O45, by the reading of `leNat` as digits to base 256. -/
theorem littleEndianRule : Obligations.LittleEndianRule := by
  unfold Obligations.LittleEndianRule
  exact fun w g => ⟨leNat_eq_sum g, leNat_lt g, toNat_leWord⟩

/-- Settles O43, by the equations of the derived parameters and their values at either width. -/
theorem derivedParameters : Obligations.DerivedParameters := by
  unfold Obligations.DerivedParameters
  exact ⟨fun w => ⟨bits_eq_groupBytes w, blockBytes_eq w, two_pow_bufLenBits w⟩, rfl, rfl⟩

end Sys2Proof.Machine
end

section
/-! PROOFS. 10_state.md: the layout of STATUS (R19), what the commands leave unchanged (R10 to R18), what a step can do
with a command word, and the invariant of R21 with the stream an accumulator holds. -/

namespace Sys2Proof

section
variable {w : Width} {c : Command w}

/-- INIT has one command word, and takes its seed from `SEED_IN`. -/
theorem decode_init {x : BitVec 64} (h : decode c = .ok (.init x)) : c.cmd = 1 ∧ x = c.seedIn.setWidth 64 := by
  simpa using decode_cases h

/-- INGEST has one command word, and takes its data from `DATA_IN`. -/
theorem decode_ingest {D : List Byte} (h : decode c = .ok (.ingest D)) : c.cmd = 2 ∧ D = c.dataIn := by
  simpa using decode_cases h

end

namespace Machine

section
variable {w : Width} {e e' : Engine w} {p : Port w} {c : Command w} {r : Response w} {x : Word w} {S D : List Byte}

/-! ## The STATUS view -/

theorem getLsbD_widthBit (w : Width) (i : Nat) :
    (widthBit w).getLsbD i = (decide (i = 0) && decide (w = .w64)) := by
  cases w <;> simp [widthBit]

/-- Every bit of STATUS (10_state.md R19). -/
theorem getLsbD_status (i : Nat) : e.status.getLsbD i =
    if i = 0 then e.valid else if i = 1 then e.fault else if i < 5 then e.fcode.code.getLsbD (i - 2)
    else decide (i = 5) && decide (w = .w64) := by
  simp only [Engine.status, BitVec.getLsbD_or, BitVec.getLsbD_shiftLeft, BitVec.getLsbD_setWidth,
    BitVec.getLsbD_ofBool, getLsbD_widthBit]
  match i with
  | 0 | 1 | 2 | 3 | 4 | 5 => simp
  | i + 6 => simp

/-! ## The commands that write -/

theorem exec_init_live (y : BitVec 64) (hf : e.fault = false) :
    exec (.init y) ⟨w, e, p⟩ = .next ⟨w, e.initialise (seedOperand w y), p.deliver .done 0⟩ := by
  exact congrArg Host.Outcome.next (unlessFaulted_live (s := ⟨w, e, p⟩) hf)

theorem exec_init_faulted (y : BitVec 64) (hf : e.fault = true) :
    exec (.init y) ⟨w, e, p⟩ = .next ⟨w, e, p.deliver .ignored 0⟩ := by
  exact congrArg Host.Outcome.next (unlessFaulted_faulted (s := ⟨w, e, p⟩) hf)

theorem exec_ingest_ready (hr : e.Ready) (hl : e.total.toNat + D.length ≤ Config.maxLength) :
    exec (.ingest D) ⟨w, e, p⟩ = .next ⟨w, e.append D, p.deliver .done 0⟩ := by
  simp [exec, execIngest, unlessFaulted_live (s := ⟨w, e, p⟩) hr.1, withAccumulator_ready hr, Nat.not_lt.mpr hl]

theorem exec_ingest_lenOvf (hr : e.Ready) (hl : Config.maxLength < e.total.toNat + D.length) :
    exec (.ingest D) ⟨w, e, p⟩ = .next ⟨w, e.record .lenOvf, p.deliver .faulted (FaultCode.lenOvf.word w)⟩ := by
  simp [exec, execIngest, unlessFaulted_live (s := ⟨w, e, p⟩) hr.1, withAccumulator_ready hr, hl]

theorem exec_digest_ready (hr : e.Ready) :
    exec .digest ⟨w, e, p⟩ = .next ⟨w, e, p.deliver .value e.digest⟩ := by
  simp [exec, execDigest, unlessFaulted_live (s := ⟨w, e, p⟩) hr.1, withAccumulator_ready hr]

/-- Within the length bound TOTAL does not wrap (10_state.md R14). -/
theorem toNat_append_total (hl : e.total.toNat + D.length ≤ Config.maxLength) :
    (e.append D).total.toNat = e.total.toNat + D.length := by
  have hlt : e.total.toNat + D.length < 2 ^ 64 := hl.trans_lt (by decide)
  rw [append_total, BitVec.toNat_add, BitVec.toNat_ofNat, Nat.add_mod_mod, Nat.mod_eq_of_lt hlt]

/-- No block completes, so the lanes are kept (10_state.md R10). -/
theorem append_lanes_short (h : e.bufLen + D.length < blockBytes w) : (e.append D).lanes = e.lanes := by
  rw [append_lanes, blocks_short e.lanes (by simpa [Engine.bufLen] using h)]

theorem sameAccumulator_record (k : FaultCode) : e.SameAccumulator (e.record k) := ⟨rfl, rfl, rfl, rfl, rfl⟩

/-- The long phase is a lower bound on TOTAL, so it lasts while TOTAL does not decrease (10_state.md R15). -/
theorem large_of_total_le (h : e.total.toNat ≤ e'.total.toNat) (hlarge : e.large = true) : e'.large = true := by
  simp only [Engine.large, decide_eq_true_eq] at hlarge ⊢
  exact hlarge.trans h

/-! ## What a step can do with a command word -/

/-- What a command word can leave and be answered, legal or not: ignored, faulted, a performed INIT, a performed INGEST,
or a value read. -/
inductive Answer (e : Engine w) (c : Command w) : Engine w → Response w → Prop where
  | ignored (hf : e.fault = true) : Answer e c e ⟨.ignored, 0⟩
  | faulted (k : FaultCode) (hf : e.fault = false) (hk : k ≠ .none) : Answer e c (e.record k) ⟨.faulted, k.word w⟩
  | initialised (hc : c.cmd = 1) (hf : e.fault = false) : Answer e c (e.initialise c.seedIn) ⟨.done, 0⟩
  | appended (hc : c.cmd = 2) (hr : e.Ready) (hl : e.total.toNat + c.dataIn.length ≤ Config.maxLength) :
      Answer e c (e.append c.dataIn) ⟨.done, 0⟩
  | read (v : Word w) : Answer e c e ⟨.value, v⟩

/-- A legal word is answered as the result of its command. -/
theorem Result.answer {i : Instr} {s : RStat} {v : Word w} (h : Result e i e' s v) (hd : decode c = .ok i) :
    Answer e c e' ⟨s, v⟩ := by
  cases h with
  | ignored _ hf _ => exact .ignored hf
  | faulted _ k hf hk => exact .faulted k hf hk
  | initialised y hf =>
    obtain ⟨hc, rfl⟩ := decode_init hd
    rw [seedOperand_setWidth]
    exact .initialised hc hf
  | appended D hr hl =>
    obtain ⟨hc, rfl⟩ := decode_ingest hd
    exact .appended hc hr hl
  | read _ v _ => exact .read v

/-- A step takes the pending command and delivers one response, as `Answer` says. -/
theorem step_command_answer (e : Engine w) (c : Command w) (rest : List (HostEvent w)) (rs : List (Response w)) :
    ∃ e' r, step (instOf e (.command c :: rest) rs) = .next (instOf e' rest (rs ++ [r])) ∧ Answer e c e' r := by
  rw [step_command]
  cases hd : decode c with
  | ok i =>
    obtain ⟨e', s, v, hexec, hres⟩ := exec_result i e ⟨rest, rs⟩
    exact ⟨e', ⟨s, v⟩, hexec, hres.answer hd⟩
  | error k =>
    cases hf : e.fault with
    | false => exact ⟨_, _, congrArg _ (rejectIllegal_live hf), .faulted .illegal hf (by decide)⟩
    | true => exact ⟨_, _, congrArg _ (rejectIllegal_faulted hf), .ignored hf⟩

/-- VALID is written by a performed INIT only (10_state.md R16). -/
theorem Answer.valid_cases (h : Answer e c e' r) :
    e'.valid = e.valid ∨ (e'.valid = true ∧ c.cmd = 1 ∧ r = ⟨.done, 0⟩) := by
  cases h with
  | initialised hc _ => exact .inr ⟨rfl, hc, rfl⟩
  | ignored | faulted | appended | read => exact .inl rfl

/-- FAULT and FCODE are written together, by a command answered FAULTED (10_state.md R17, R18). -/
theorem Answer.fault_cases (h : Answer e c e' r) :
    (e'.fault = e.fault ∧ e'.fcode = e.fcode) ∨ (e.fault = false ∧ e'.fault = true ∧ r.rstat = .faulted) := by
  cases h with
  | faulted k hf _ => exact .inr ⟨hf, rfl, rfl⟩
  | ignored | initialised | appended | read => exact .inl ⟨rfl, rfl⟩

/-- TOTAL is written by a performed INIT or INGEST only (10_state.md R14). -/
theorem Answer.total_cases (h : Answer e c e' r) :
    (c.cmd = 1 ∧ r = ⟨.done, 0⟩ ∧ e'.total = 0) ∨
    (c.cmd = 2 ∧ r = ⟨.done, 0⟩ ∧ e'.total.toNat = e.total.toNat + c.dataIn.length) ∨
    (r ≠ ⟨.done, 0⟩ ∧ e'.total = e.total) := by
  cases h with
  | initialised hc _ => exact .inl ⟨hc, rfl, rfl⟩
  | appended hc _ hl => exact .inr (.inl ⟨hc, rfl, toNat_append_total hl⟩)
  | ignored | faulted | read => exact .inr (.inr ⟨by simp, rfl⟩)

/-! ## The stream an accumulator holds -/

/-- Recording a fault writes nothing of the accumulator, so the stream is still held (60_exceptions.md R167). -/
theorem Engine.Holds.record (h : e.Holds x S) (k : FaultCode) : (e.record k).Holds x S :=
  ⟨h.total_eq, h.bufLen_eq, h.buf_eq, h.lanes_eq, h.seed_eq⟩

/-- In the short phase no block of the stream has been processed. -/
theorem Engine.Holds.lanes_short (h : e.Holds x S) (hS : S.length < blockBytes w) : e.lanes = seedLanes x := by
  rw [h.lanes_eq, blocks_short _ hS]

/-- Only the whole blocks of a stream reach the lanes (41_block_tail.md R102). -/
theorem blocks_take_whole (v : Lanes w) (S : List Byte) :
    (blocks v (S.take (S.length / blockBytes w * blockBytes w))).1 = (blocks v S).1 := by
  set k := S.length / blockBytes w * blockBytes w with hk
  have hkS : k ≤ S.length := Nat.div_mul_le_self _ _
  have hrest : (blocks v (S.take k)).2 = [] := by
    rw [← List.length_eq_zero_iff, (blocks_tail _ _).2, List.length_take_of_le hkS, hk, Nat.mul_mod_left]
  have htail : (S.drop k).length < blockBytes w := by
    have hmod := Nat.mod_lt S.length (blockBytes_pos w)
    have hdiv := Nat.div_add_mod' S.length (blockBytes w)
    rw [List.length_drop]
    omega
  calc (blocks v (S.take k)).1 = (blocks (blocks v (S.take k)).1 (S.drop k)).1 := by rw [blocks_short _ htail]
    _ = (blocks v (S.take k ++ S.drop k)).1 := by rw [blocks_append, hrest, List.nil_append]
    _ = (blocks v S).1 := by rw [List.take_append_drop]

/-- INGESTs within the length bound are all performed, and append their data to the stream held. -/
theorem execAll_ingest_holds (Cs : List (List Byte)) (h : e.Holds x S) (hf : e.fault = false) (hv : e.valid = true)
    (hl : S.length + Cs.flatten.length ≤ Config.maxLength) :
    ∃ e', execAll (Cs.map .ingest) ⟨w, e, p⟩ =
        .next ⟨w, e', ⟨p.pending, p.responses ++ List.replicate Cs.length ⟨.done, 0⟩⟩⟩ ∧
      e'.Holds x (S ++ Cs.flatten) ∧ e'.valid = true ∧ e'.fault = false ∧ e'.fcode = e.fcode := by
  induction Cs generalizing e p S with
  | nil => exact ⟨e, by simp [execAll], by simpa using h, hv, hf, rfl⟩
  | cons D Cs ih =>
    rw [List.flatten_cons, List.length_append] at hl
    have hD : e.total.toNat + D.length ≤ Config.maxLength := by rw [h.total_eq]; omega
    have hexec := exec_ingest_ready (p := p) ⟨hf, hv, h.bufLen_lt⟩ hD
    obtain ⟨e', hall, hS, hrest⟩ := ih (p := p.deliver .done 0) (h.append hD) hf hv (by rw [List.length_append]; omega)
    refine ⟨e', ?_, ?_, hrest⟩
    · simpa [execAll, hexec, List.replicate_succ] using hall
    · simpa using hS

/-! ## The invariant -/

/-- The reset engine meets the invariant: no fault, no code, no accumulator (70_reset_and_hazards.md R191). -/
theorem inv_reset (w : Width) : (Engine.reset w).Inv := by
  simp [Engine.Inv, Engine.reset]

/-- The fault entry writes FAULT and FCODE together (10_state.md R17, R18). -/
theorem Engine.Inv.record (h : e.Inv) {k : FaultCode} (hk : k ≠ .none) : (e.record k).Inv := by
  obtain ⟨-, hstream⟩ := h
  refine ⟨⟨fun _ => hk, fun _ => rfl⟩, fun hv => ?_⟩
  obtain ⟨S, hS⟩ := hstream hv
  exact ⟨S, hS.record k⟩

theorem Engine.Inv.initialise (h : e.Inv) (x : Word w) : (e.initialise x).Inv := by
  obtain ⟨hcode, -⟩ := h
  exact ⟨hcode, fun _ => ⟨[], holds_initialise x⟩⟩

theorem Engine.Inv.append (h : e.Inv) (hl : e.total.toNat + D.length ≤ Config.maxLength) : (e.append D).Inv := by
  obtain ⟨hcode, hstream⟩ := h
  refine ⟨hcode, fun hv => ?_⟩
  obtain ⟨S, hS⟩ := hstream hv
  exact ⟨S ++ D, hS.append hl⟩

theorem Answer.inv (h : Answer e c e' r) (he : e.Inv) : e'.Inv := by
  cases h with
  | ignored | read => exact he
  | faulted k _ hk => exact he.record hk
  | initialised => exact he.initialise _
  | appended _ _ hl => exact he.append hl

/-- Without a fault there is no code. -/
theorem Engine.Inv.fcode_eq_none (h : e.Inv) (hf : e.fault = false) : e.fcode = .none := by
  obtain ⟨hcode, -⟩ := h
  simpa [hf] using hcode

/-- Under the invariant an accumulator without a fault is ready: its buffer is below its capacity. -/
theorem Engine.Inv.ready (h : e.Inv) (hf : e.fault = false) (hv : e.valid = true) : e.Ready := by
  obtain ⟨-, hstream⟩ := h
  obtain ⟨S, hS⟩ := hstream hv
  exact ⟨hf, hv, hS.bufLen_lt⟩

/-- On a ready engine with no code, DIGEST and INGEST do not raise INVARIANT: the check passes, and LENOVF is the one
fault left (60_exceptions.md R163, R164). -/
theorem Engine.Ready.fcode_ne_invariant (hr : e.Ready) (hcode : e.fcode = .none) {t : State}
    (ht : exec .digest ⟨w, e, p⟩ = .next t ∨ exec (.ingest D) ⟨w, e, p⟩ = .next t) : t.engine.fcode ≠ .invariant := by
  obtain hdigest | hingest := ht
  · rw [exec_digest_ready hr] at hdigest
    cases hdigest
    simp [hcode]
  · obtain hl | hl := Nat.lt_or_ge Config.maxLength (e.total.toNat + D.length)
    · rw [exec_ingest_lenOvf hr hl] at hingest
      cases hingest
      simp
    · rw [exec_ingest_ready hr hl] at hingest
      cases hingest
      simp [hcode]

end

/-! ## The obligations -/

/-- Settles O35, by the cases of a pending event; a command's five answers each keep the invariant. -/
theorem everyStepKeepsTheInvariant : Obligations.EveryStepKeepsTheInvariant := by
  unfold Obligations.EveryStepKeepsTheInvariant
  rintro ⟨w, e, ⟨pending, rs⟩⟩ t hs hstep
  change step (instOf e pending rs) = .next t at hstep
  cases pending with
  | nil =>
    rw [step_idle] at hstep
    cases hstep
    exact hs
  | cons ev rest =>
    cases ev with
    | command c =>
      obtain ⟨e', r, hcommand, hans⟩ := step_command_answer e c rest rs
      rw [hcommand] at hstep
      cases hstep
      exact hans.inv hs
    | reset =>
      rw [step_reset] at hstep
      cases hstep
      exact inv_reset w
    | resetDuring c =>
      rw [step_resetDuring] at hstep
      cases hstep
      exact inv_reset w

/-- Settles O30: INIT by its two outcomes, INGEST by the three that a command that writes can have. -/
theorem writingCommandsFrame : Obligations.WritingCommandsFrame := by
  unfold Obligations.WritingCommandsFrame
  refine fun w e p x D t => ⟨fun ht => ?_, fun ht => ?_⟩
  · cases hf : e.fault with
    | false =>
      rw [exec_init_live x hf] at ht
      cases ht
      exact ⟨_, _, rfl, hf, rfl⟩
    | true =>
      rw [exec_init_faulted x hf] at ht
      cases ht
      exact ⟨_, _, rfl, hf, rfl⟩
  · obtain ⟨e', s, v, hexec, hres⟩ := exec_result (.ingest D) e p
    rw [hexec] at ht
    cases ht
    refine ⟨e', ⟨s, v⟩, rfl, ?_⟩
    cases hres with
    | ignored => exact ⟨rfl, rfl, fun _ => ⟨rfl, rfl⟩, by simp, fun _ => rfl⟩
    | faulted _ k => exact ⟨rfl, rfl, by simp, fun _ => sameAccumulator_record k, fun _ => rfl⟩
    | appended => exact ⟨rfl, rfl, fun _ => ⟨rfl, rfl⟩, by simp, append_lanes_short⟩
    | read _ _ hi => cases hi

/-- Settles O31, by what an answer can write of VALID, and of FAULT with FCODE. -/
theorem statusBitsChangeOnlyAsRuled : Obligations.StatusBitsChangeOnlyAsRuled := by
  unfold Obligations.StatusBitsChangeOnlyAsRuled
  intro w e c rest rs
  obtain ⟨e', r, hstep, hans⟩ := step_command_answer e c rest rs
  refine ⟨e', r, hstep, ?_, ?_, ?_⟩
  · obtain hvalid | ⟨hvalid, -⟩ := hans.valid_cases <;> simp [hvalid]
  · obtain hvalid | ⟨-, hinit⟩ := hans.valid_cases
    · simp +contextual [hvalid]
    · exact fun _ => .inr hinit
  · obtain ⟨hfault, hcode⟩ | ⟨hlive, hfault, hr⟩ := hans.fault_cases
    · simp +contextual [hfault, hcode]
    · simp [hlive, hfault, hr]

/-- Settles O32, by the three things an answer can do to TOTAL. -/
theorem totalCountsTheBytesIngested : Obligations.TotalCountsTheBytesIngested := by
  unfold Obligations.TotalCountsTheBytesIngested
  intro w e c rest rs
  obtain ⟨e', r, hstep, hans⟩ := step_command_answer e c rest rs
  refine ⟨e', r, hstep, ?_⟩
  obtain ⟨hc, hr, htotal⟩ | ⟨hc, hr, htotal⟩ | ⟨hr, htotal⟩ := hans.total_cases
  · simp [hc, hr, htotal]
  · have hle : e.total.toNat ≤ e'.total.toNat := by omega
    exact ⟨fun _ _ => htotal, by simp [hc], by simp [hc, hr], fun _ => ⟨hle, large_of_total_le hle⟩⟩
  · have hle : e.total.toNat ≤ e'.total.toNat := by rw [htotal]
    exact ⟨fun _ h => absurd h hr, fun _ h => absurd h hr, fun _ => htotal, fun _ => ⟨hle, large_of_total_le hle⟩⟩

/-- Settles O33: the layout by the bits of STATUS, the codes by evaluation. -/
theorem statusLayoutAndCodes : Obligations.StatusLayoutAndCodes := by
  unfold Obligations.StatusLayoutAndCodes
  refine ⟨fun w e => ⟨getLsbD_status 0, getLsbD_status 1, ?_, getLsbD_status 5, ?_⟩, by decide, by decide⟩
  · refine BitVec.eq_of_getLsbD_eq fun i hi => ?_
    rw [BitVec.getLsbD_extractLsb', getLsbD_status, if_neg (by omega), if_neg (by omega), if_pos (by omega)]
    simp [hi]
  · refine BitVec.eq_of_getLsbD_eq fun i hi => ?_
    rw [BitVec.getLsbD_extractLsb', getLsbD_status, if_neg (by omega), if_neg (by omega), if_neg (by omega)]
    simp
    omega

/-- Settles O36: INIT holds the empty stream and the INGESTs append theirs to it, by induction over the chunks. -/
theorem accumulatorHoldsTheStream : Obligations.AccumulatorHoldsTheStream := by
  unfold Obligations.AccumulatorHoldsTheStream
  intro w e p x Cs hf hl
  have hempty : (e.initialise x).Holds x [] := holds_initialise x
  obtain ⟨e', hall, hS, hv', hf', hcode⟩ :=
    execAll_ingest_holds (p := p.deliver .done 0) Cs hempty hf rfl (by simpa using hl)
  rw [List.nil_append] at hS
  have hbuf : e'.bufLen = e'.total.toNat % blockBytes w := by rw [hS.bufLen_eq, hS.total_eq]
  have hexec : execAll (.init (x.setWidth 64) :: Cs.map .ingest) ⟨w, e, p⟩ =
      execAll (Cs.map .ingest) ⟨w, e.initialise x, p.deliver .done 0⟩ := by
    simp only [execAll, exec_init_live _ hf, seedOperand_setWidth]
  refine ⟨e', _, hexec.trans hall, ?_, hv', hf', hcode, hS.total_eq, hbuf, ?_, ?_, hS.seed_eq⟩
  · simp [List.replicate_succ]
  · rw [hS.total_eq]; exact hS.buf_eq
  · rw [hS.total_eq, blocks_take_whole]; exact hS.lanes_eq

/-- Settles O37: the buffer of the stream held is below its capacity, so the engine is ready and the check passes. -/
theorem invariantRulesOutTheInvariantFault : Obligations.InvariantRulesOutTheInvariantFault := by
  unfold Obligations.InvariantRulesOutTheInvariantFault
  intro w e he hv
  have ⟨_, hstream⟩ := he
  obtain ⟨S, hS⟩ := hstream hv
  refine ⟨hS.bufLen_lt, fun hshort => ?_, fun p D t hf ht => ?_⟩
  · have hlen : S.length < blockBytes w := by simpa [Engine.large, hS.total_eq] using hshort
    have hlanes := hS.lanes_short hlen
    refine ⟨hlanes, by rw [hlanes]; rfl, ?_⟩
    rw [hS.bufLen_eq, hS.total_eq, Nat.mod_eq_of_lt hlen]
  · exact (he.ready hf hv).fcode_ne_invariant (he.fcode_eq_none hf) ht

/-- Settles O34: either build starts in its reset engine. -/
theorem resetMeetsTheInvariant : Obligations.ResetMeetsTheInvariant := by
  unfold Obligations.ResetMeetsTheInvariant
  exact ⟨inv_reset, inv_reset Config.resetWidth⟩

end Machine

end Sys2Proof
end

section
/-! PROOFS. 20_memory.md: the frame of the reading commands (R36). -/

namespace Sys2Proof.Machine

section
variable {w : Width} {e e' : Engine w} {i : Instr} {s : RStat} {v : Word w}

/-- A reading command keeps the engine unless it raises a fault, and the fault entry keeps the accumulator
(60_exceptions.md R167). -/
theorem Result.reading_frame (h : Result e i e' s v) (hi : readsOnly i = true) :
    e.SameAccumulator e' ∧ (s ≠ .faulted → e' = e) := by
  cases h with
  | ignored | read => exact ⟨⟨rfl, rfl, rfl, rfl, rfl⟩, fun _ => rfl⟩
  | faulted _ k => exact ⟨sameAccumulator_record k, fun hs => absurd rfl hs⟩
  | initialised | appended => cases hi

end

/-! ## The obligations -/

/-- Settles O29, by the results a command that only reads can have. -/
theorem readingCommandsWriteNoAccumulator : Obligations.ReadingCommandsWriteNoAccumulator := by
  unfold Obligations.ReadingCommandsWriteNoAccumulator
  intro w e p i t hi ht
  obtain ⟨e', s, v, hexec, hres⟩ := exec_result i e p
  rw [hexec] at ht
  cases ht
  exact ⟨e', ⟨s, v⟩, rfl, hres.reading_frame hi⟩

end Sys2Proof.Machine
end

section
/-! PROOFS. 30_encoding.md: the decoder against the encoder (R51 to R60), the one response per command (R50, R54, R55),
and the pseudo-commands and the pattern of the line syntax (R61, R62). -/

namespace Sys2Proof

section
variable {w : Width} {c : Command w}

/-! ## The operands -/

theorem setWidth_setWidth_of_seedFits {seed : BitVec 64} (h : seedFits w seed = true) :
    (seed.setWidth w.bits).setWidth 64 = seed := by
  have hlt : seed.toNat < 2 ^ w.bits := by simpa [seedFits] using h
  apply BitVec.eq_of_toNat_eq
  rw [BitVec.toNat_setWidth, BitVec.toNat_setWidth, Nat.mod_eq_of_lt hlt, Nat.mod_eq_of_lt seed.isLt]

/-- What `SEED_IN` carries fits it. -/
@[simp] theorem seedFits_setWidth (x : Word w) : seedFits w (x.setWidth 64) = true := by
  rw [seedFits, decide_eq_true_eq, BitVec.toNat_setWidth]
  exact (Nat.mod_le _ _).trans_lt x.isLt

theorem dataFits_iff {D : List Byte} : dataFits D = true ↔ D.length ≤ Config.maxLength := decide_eq_true_iff

/-! ## Encoding -/

/-- `SEED_IN` has W bits, so the seed must fit them; every other operand is presented whole (30_encoding.md R53). -/
theorem decode_encode {i : Instr} (h : i.wf w = true) : decode (encode w i) = .ok i := by
  cases i with
  | init seed => rw [decode_word1 rfl, encode, setWidth_setWidth_of_seedFits h]
  | ingest D => exact decode_word2 rfl
  | digest => exact decode_word3 rfl
  | oneshot seed D =>
    obtain ⟨hseed, -⟩ : seedFits w seed = true ∧ dataFits D = true := by simpa [Instr.wf] using h
    rw [decode_word4 rfl, encode, setWidth_setWidth_of_seedFits hseed]
  | rdstatus => exact decode_word5 rfl

theorem decode_wf {i : Instr} (h : decode c = .ok i) (hD : c.dataIn.length ≤ Config.maxLength) : i.wf w = true := by
  obtain ⟨-, rfl⟩ | ⟨-, rfl⟩ | ⟨-, rfl⟩ | ⟨-, rfl⟩ | ⟨-, rfl⟩ := decode_cases h <;>
    simp [Instr.wf, dataFits_iff, hD]

/-! ## The legal words -/

/-- The reserved bits are zero and the opcode is assigned exactly in the words 1 to 5 (30_encoding.md R52). -/
theorem decode_ok_iff : (∃ i, decode c = .ok i) ↔ 1 ≤ c.cmd.toNat ∧ c.cmd.toNat ≤ 5 := by
  constructor
  · rintro ⟨i, h⟩
    obtain ⟨hc, -⟩ | ⟨hc, -⟩ | ⟨hc, -⟩ | ⟨hc, -⟩ | ⟨hc, -⟩ := decode_cases h <;> simp [hc]
  · rintro ⟨hpos, hle⟩
    rw [decode_lt (by omega)]
    generalize c.cmd.toNat = n at hpos hle
    interval_cases n <;> exact ⟨_, rfl⟩

end

namespace Machine

section
variable {w : Width} {e e' : Engine w} {p : Port w} {c : Command w} {i : Instr} {x : Word w} {D S : List Byte}
  {rest : List (HostEvent w)} {rs : List (Response w)}

/-! ## Steps -/

/-- A step with a legal word pending does what its command does, with the event taken. -/
theorem step_of_exec {r : RStat} {v : Word w} (hd : decode c = .ok i)
    (hexec : exec i ⟨w, e, ⟨rest, rs⟩⟩ = .next ⟨w, e', Port.deliver ⟨rest, rs⟩ r v⟩) :
    step (instOf e (.command c :: rest) rs) = .next (instOf e' rest (rs ++ [⟨r, v⟩])) := by
  rw [step_command, hd]
  exact hexec

theorem step_of_illegal (hd : ∀ i, decode c ≠ .ok i) :
    step (instOf e (.command c :: rest) rs) = .next (rejectIllegal (instOf e rest rs)) := by
  rw [step_command]
  cases h : decode c with
  | ok i => exact absurd h (hd i)
  | error k => rfl

theorem illegal_word (w : Width) : FaultCode.illegal.word w = 1 := by cases w <;> rfl

theorem exec_oneshot_live (seed : BitVec 64) (hf : e.fault = false) (hD : D.length ≤ Config.maxLength) :
    exec (.oneshot seed D) ⟨w, e, p⟩ = .next ⟨w, e, p.deliver .value (oneshotDigest (seedOperand w seed) D)⟩ := by
  simp [exec, execOneshot, unlessFaulted_live (s := ⟨w, e, p⟩) hf, Nat.not_lt.mpr hD]

/-! ## Ready engines -/

theorem ready_initialise (hf : e.fault = false) (x : Word w) : (e.initialise x).Ready :=
  ⟨hf, rfl, blockBytes_pos w⟩

/-- Appending processes every whole block, so the buffer stays below its capacity (42_accumulator.md R132). -/
theorem Engine.Ready.append (h : e.Ready) (D : List Byte) : (e.append D).Ready := by
  obtain ⟨hf, hv, -⟩ := h
  refine ⟨hf, hv, ?_⟩
  rw [Engine.bufLen, append_buf, (blocks_tail _ _).2]
  exact Nat.mod_lt _ (blockBytes_pos w)

/-- DIGEST finalizes what ONESHOT would have computed from the stream held (42_accumulator.md R133, R134). -/
theorem Engine.Holds.digest_eq (h : e.Holds x S) : e.digest = oneshotDigest x S := by
  rw [Engine.digest, oneshotDigest, h.seed_eq, h.lanes_eq, h.total_eq, h.buf_tail]

/-! ## The pseudo-commands and the pattern -/

theorem hashCommands_eq (x : Word w) (D : List Byte) :
    hashCommands w x D = [⟨1, x, []⟩, ⟨2, 0, D⟩, ⟨3, 0, []⟩] := by
  simp [hashCommands, encode, Instr.word]

theorem randinitCommands_eq (x : Word w) : randinitCommands w x = [⟨1, x, []⟩] := by
  simp [randinitCommands, encode, Instr.word]

/-- HASH run by steps: INIT forgets the history, INGEST makes the accumulator hold the data, and DIGEST answers the
digest of what is held. -/
theorem run_hashCommands (hf : e.fault = false) (hD : D.length ≤ Config.maxLength) :
    core.run 3 (instOf e ((hashCommands w x D).map .command ++ rest) rs) =
      .next (instOf ((e.initialise x).append D) rest
        (rs ++ [⟨.done, 0⟩, ⟨.done, 0⟩, ⟨.value, oneshotDigest x D⟩])) := by
  have hl : (e.initialise x).total.toNat + D.length ≤ Config.maxLength := by simpa using hD
  have hready : (e.initialise x).Ready := ready_initialise hf x
  have hholds : ((e.initialise x).append D).Holds x D := (holds_initialise x).append hl
  have hinit := exec_init_live (p := ⟨.command ⟨2, 0, D⟩ :: .command ⟨3, 0, []⟩ :: rest, rs⟩) (x.setWidth 64) hf
  rw [seedOperand_setWidth] at hinit
  have hstep1 := step_of_exec (c := ⟨1, x, []⟩) (decode_word1 rfl) hinit
  have hstep2 := step_of_exec (c := ⟨2, 0, D⟩) (rest := .command ⟨3, 0, []⟩ :: rest) (rs := rs ++ [⟨.done, 0⟩])
    (decode_word2 rfl) (exec_ingest_ready hready hl)
  have hstep3 := step_of_exec (c := ⟨3, 0, []⟩) (rest := rest) (rs := rs ++ [⟨.done, 0⟩] ++ [⟨.done, 0⟩])
    (decode_word3 rfl) (exec_digest_ready (hready.append D))
  rw [hholds.digest_eq] at hstep3
  simp only [hashCommands_eq, List.map_cons, List.map_nil, List.cons_append, List.nil_append]
  rw [run_succ hstep1, run_succ hstep2, run_succ hstep3, run_zero]
  simp

theorem length_pat (i j : Nat) : (pat i j).length = j - i := by simp [pat]

theorem getElem?_pat {i j k : Nat} (hk : k < j - i) : (pat i j)[k]? = some (BitVec.ofNat 8 (i + k)) := by
  simp [pat, hk]

end

/-! ## The obligations -/

/-- Settles O1, by the command's row of the opcode map; the seed survives the port that it fits. -/
theorem decodeOfEncodeIsTheCommand : Obligations.DecodeOfEncodeIsTheCommand := by
  unfold Obligations.DecodeOfEncodeIsTheCommand
  exact fun w i h => decode_encode h

/-- Settles O2, by the five commands a legal word can be. -/
theorem encodeOfDecodeKeepsTheWord : Obligations.EncodeOfDecodeKeepsTheWord := by
  unfold Obligations.EncodeOfDecodeKeepsTheWord
  intro w c i h hD
  refine ⟨decode_wf h hD, ?_⟩
  obtain ⟨hc, rfl⟩ | ⟨hc, rfl⟩ | ⟨hc, rfl⟩ | ⟨hc, rfl⟩ | ⟨hc, rfl⟩ := decode_cases h <;>
    simp [encode, Instr.word, hc]

/-- Settles O3: the legal words are 1 to 5, and a step rejects any other by the state of FAULT. -/
theorem onlyFiveWordsAreLegal : Obligations.OnlyFiveWordsAreLegal := by
  unfold Obligations.OnlyFiveWordsAreLegal
  refine ⟨fun w c => ⟨?_, decode_ok_iff⟩, fun w e c rest rs hd => ⟨fun hf => ?_, fun hf => ?_⟩⟩
  · rw [decode_ok_iff]
    omega
  · rw [step_of_illegal hd, instOf, rejectIllegal_live hf, illegal_word]
    rfl
  · rw [step_of_illegal hd, instOf, rejectIllegal_faulted hf]
    rfl

/-- Settles O10, by what a step does with each kind of event. -/
theorem oneResponsePerCommand : Obligations.OneResponsePerCommand := by
  unfold Obligations.OneResponsePerCommand
  intro w e c rest rs
  obtain ⟨e', r, hstep, -⟩ := step_command_answer e c rest rs
  exact ⟨⟨e', r, hstep⟩, ⟨_, step_reset rest rs⟩, ⟨_, step_resetDuring c rest rs⟩⟩

/-- Settles O20, by the command: each passes its checks, and what it leaves is ready. -/
theorem readyEngineNeverFaults : Obligations.ReadyEngineNeverFaults := by
  unfold Obligations.ReadyEngineNeverFaults
  intro w e p i hr hwf hbound
  have ⟨hf, _, _⟩ := hr
  cases i with
  | init seed => exact ⟨_, 0, exec_init_live seed hf, ready_initialise hf _, fun _ => rfl⟩
  | ingest D => exact ⟨_, 0, exec_ingest_ready hr (hbound D rfl), hr.append D, fun _ => rfl⟩
  | digest => exact ⟨e, _, exec_digest_ready hr, hr, by simp [readsOnly]⟩
  | oneshot seed D =>
    have hD : D.length ≤ Config.maxLength := by
      rw [Instr.wf, Bool.and_eq_true] at hwf
      exact dataFits_iff.1 hwf.2
    exact ⟨e, _, exec_oneshot_live seed hf hD, hr, by simp [readsOnly]⟩
  | rdstatus => exact ⟨e, _, rfl, hr, by simp [readsOnly]⟩

/-- Settles O41: both answers are `oneshotDigest`, a function of the seed and the data alone. -/
theorem hashAnswersOneshotWhateverTheHistory : Obligations.HashAnswersOneshotWhateverTheHistory := by
  unfold Obligations.HashAnswersOneshotWhateverTheHistory
  refine fun w x D hD => ⟨oneshotDigest x D, fun e rest rs hf => ⟨?_, _, run_hashCommands hf hD⟩⟩
  have honeshot := exec_oneshot_live (p := ⟨rest, rs⟩) (x.setWidth 64) hf hD
  rw [seedOperand_setWidth] at honeshot
  exact step_of_exec (decode_word4 rfl) honeshot

/-- Settles O4: the five words by the decoder's row for each, the others by the value of their opcode or reserved bits. -/
theorem fiveWordsDecodeToTheirCommands : Obligations.FiveWordsDecodeToTheirCommands := by
  unfold Obligations.FiveWordsDecodeToTheirCommands
  intro w x D
  exact ⟨decode_word1 rfl, decode_word2 rfl, decode_word3 rfl, decode_word4 rfl, decode_word5 rfl,
    decode_lt (by simp), decode_lt (by simp), decode_lt (by simp), decode_ge (by simp), decode_ge (by simp)⟩

/-- Settles O55, by the expansions and the byte at each position of the pattern. -/
theorem pseudoCommandsAndPattern : Obligations.PseudoCommandsAndPattern := by
  unfold Obligations.PseudoCommandsAndPattern
  refine ⟨fun w x r D => ⟨hashCommands_eq x D, randinitCommands_eq r, rfl⟩, fun i j => ⟨length_pat i j, fun k hk => ?_⟩⟩
  exact ⟨_, getElem?_pat hk, BitVec.toNat_ofNat _ _⟩

end Machine

end Sys2Proof
end

section
/-! PROOFS. 40_mixing.md: the round, the merges, the avalanche and the seed initializer, with the constants of R70 to
R72 as literals. The rotations are the library's `BitVec.rotateLeft`, through `rotl_eq_rotateLeft`. -/

namespace Sys2Proof.Machine

section
variable {w : Width}

/-! ## The rotations of the datapath -/

theorem roundRotation_lt (w : Width) : roundRotation w < w.bits := by cases w <;> decide

/-- The amounts of R76 and R77 are below either width. -/
theorem laneRotation_lt {r : Nat} (hr : r ≤ 18) (w : Width) : r < w.bits :=
  hr.trans_lt (by cases w <;> decide)

@[simp] theorem rotl_zero (w : Width) (r : Nat) : rotl 0#w.bits r = 0#w.bits := by simp [rotl]

theorem round_eq (lane input : Word w) :
    round lane input = (lane + input * P2 w).rotateLeft (roundRotation w) * P1 w := by
  rw [round, rotl_eq_rotateLeft _ (roundRotation_lt w)]

theorem rotatedSum_eq (v : Lanes w) :
    rotatedSum v = v.v0.rotateLeft 1 + v.v1.rotateLeft 7 + v.v2.rotateLeft 12 + v.v3.rotateLeft 18 := by
  have hlane (x : Word w) {r : Nat} (hr : r ≤ 18) : rotl x r = x.rotateLeft r :=
    rotl_eq_rotateLeft x (laneRotation_lt hr w)
  rw [rotatedSum, hlane v.v0 (by decide), hlane v.v1 (by decide), hlane v.v2 (by decide), hlane v.v3 (by decide)]

/-! ## The round and the merges -/

/-- A zero input leaves the lane to the rotation and the multiplication (40_mixing.md R74). -/
theorem round_zero_input (lane : Word w) : round lane 0#w.bits = rotl lane (roundRotation w) * P1 w := by
  rw [round, BitVec.zero_mul, BitVec.add_zero]

@[simp] theorem round_zero (w : Width) : round 0#w.bits 0#w.bits = 0#w.bits := by
  rw [round_zero_input, rotl_zero, BitVec.zero_mul]

/-- A zero lane merges as a bare multiply and add, since its round is zero (40_mixing.md R75). -/
theorem mergeRound_zero (acc : Word .w64) : mergeRound acc 0#Width.w64.bits = acc * P1 .w64 + P4 .w64 := by
  have hround : round 0 0#Width.w64.bits = 0#Width.w64.bits := round_zero .w64
  rw [mergeRound, hround, BitVec.xor_zero]

/-- The four merge rounds are one pass over the lanes in order, from the rotated sum (40_mixing.md R77). -/
theorem mergeLanes_w64_eq_foldl (v : Lanes .w64) :
    mergeLanes v = [v.v0, v.v1, v.v2, v.v3].foldl mergeRound (rotatedSum v) := rfl

end

/-! ## The obligations -/

/-- Settles O46, by the round and the rotated sum with the library's rotation, and by the round of zero. -/
theorem roundAndMergeRules : Obligations.RoundAndMergeRules := by
  unfold Obligations.RoundAndMergeRules
  refine ⟨round_eq (w := .w64), round_eq (w := .w32), round_zero, fun _ _ => rfl, mergeRound_zero,
    fun v0 v1 v2 v3 => rotatedSum_eq (w := .w32) ⟨v0, v1, v2, v3⟩, fun v0 v1 v2 v3 => ?_⟩
  rw [mergeLanes_w64_eq_foldl, rotatedSum_eq]

/-- Settles O47: every clause is the definition at one width, with its constants evaluated. -/
theorem avalancheAndSeedRules : Obligations.AvalancheAndSeedRules := by
  unfold Obligations.AvalancheAndSeedRules
  exact ⟨fun _ => rfl, fun _ => rfl, fun _ => rfl, fun _ => rfl, fun _ => rfl, fun _ => rfl⟩

end Sys2Proof.Machine
end

section
/-! PROOFS. 41_block_tail.md: the block (R100, R101), the blocks of a stream and the tail they leave (R102), the tail
handlers with their steps (R103 to R110), the length (R111) and the finalization (R112, R113). -/

namespace Sys2Proof.Machine

section
variable {w : Width}

/-! ## The block -/

/-- The group of a lane is the part of the block that begins where the groups before it end. -/
theorem laneGroup_append {A g : List Byte} {i : Nat} (hA : A.length = i * groupBytes w) (hg : g.length = groupBytes w)
    (T : List Byte) : laneGroup (A ++ (g ++ T)) i = leWord w g := by
  rw [laneGroup, List.drop_left' hA, List.take_left' hg]

/-- Each lane takes its own group of the block (41_block_tail.md R101). -/
theorem block_append (v : Lanes w) {g0 g1 g2 g3 : List Byte} (h0 : g0.length = groupBytes w)
    (h1 : g1.length = groupBytes w) (h2 : g2.length = groupBytes w) (h3 : g3.length = groupBytes w) :
    block v (g0 ++ g1 ++ g2 ++ g3) =
      ⟨round v.v0 (leWord w g0), round v.v1 (leWord w g1), round v.v2 (leWord w g2), round v.v3 (leWord w g3)⟩ := by
  have hlane0 := laneGroup_append (A := []) (i := 0) (by simp) h0 (g1 ++ g2 ++ g3)
  have hlane1 := laneGroup_append (A := g0) (i := 1) (by simp [h0]) h1 (g2 ++ g3)
  have hlane2 := laneGroup_append (A := g0 ++ g1) (i := 2) (by simp [h0, h1, Nat.two_mul]) h2 g3
  have hlane3 := laneGroup_append (A := g0 ++ g1 ++ g2) (i := 3) (by simp [h0, h1, h2]; omega) h3 []
  simp only [List.nil_append, List.append_nil, List.append_assoc] at hlane0 hlane1 hlane2 hlane3 ⊢
  rw [block, hlane0, hlane1, hlane2, hlane3]

theorem leNat_replicate_zero (n : Nat) : leNat (List.replicate n 0) = 0 := by
  induction n with
  | zero => rfl
  | succ n ih => rw [List.replicate_succ, leNat, ih]; rfl

/-- Every group of an all-zero block is zero. -/
theorem laneGroup_replicate_zero (n i : Nat) : (laneGroup (List.replicate n 0) i : Word w) = 0#w.bits := by
  rw [laneGroup, List.drop_replicate, List.take_replicate, leWord, leNat_replicate_zero]

/-! ## The blocks of a stream -/

/-- A whole block in front is consumed first (41_block_tail.md R102). -/
theorem blocks_cons (v : Lanes w) {B : List Byte} (hB : B.length = blockBytes w) (S : List Byte) :
    blocks v (B ++ S) = blocks (block v B) S :=
  eachGroup_cons (blockBytes_pos w) hB

end

/-! ## The tail handlers -/

section
variable {g T : List Byte}

theorem tail64_group8 (acc : Word .w64) (hg : g.length = 8) (T : List Byte) :
    tail64 acc (g ++ T) = tail64 (t64x8 acc g) T := by
  rw [tail64, eachGroup_cons (by decide) hg, tail64]

/-- Fewer than four bytes hold no group: they are taken one by one (41_block_tail.md R103). -/
theorem tail64_eq_foldl (acc : Word .w64) (hT : T.length < 4) : tail64 acc T = T.foldl t64x1 acc := by
  rw [tail64, eachGroup_short (by omega)]
  simp [Nat.not_le.mpr hT]

theorem tail64_group4 (acc : Word .w64) (hg : g.length = 4) (hT : T.length < 4) :
    tail64 acc (g ++ T) = tail64 (t64x4 acc g) T := by
  have hlen : (g ++ T).length < 8 := by rw [List.length_append]; omega
  rw [tail64_eq_foldl _ hT, tail64, eachGroup_short hlen]
  simp [hg, List.take_left' hg, List.drop_left' hg]

theorem tail32_group4 (acc : Word .w32) (hg : g.length = 4) (T : List Byte) :
    tail32 acc (g ++ T) = tail32 (t32x4 acc g) T := by
  rw [tail32, eachGroup_cons (by decide) hg, tail32]

/-- Fewer than four bytes hold no group: they are taken one by one (41_block_tail.md R107). -/
theorem tail32_eq_foldl (acc : Word .w32) (hT : T.length < 4) : tail32 acc T = T.foldl t32x1 acc := by
  rw [tail32, eachGroup_short hT]

end

/-! ## Groups given byte by byte -/

/-- A byte appended below a word is its least significant digit to base 256. -/
theorem toNat_append_byte {n : Nat} (x : BitVec n) (b : Byte) : (x ++ b).toNat = b.toNat + 256 * x.toNat := by
  rw [BitVec.toNat_append, ← Nat.shiftLeft_add_eq_or_of_lt b.isLt, Nat.shiftLeft_eq]
  omega

theorem leNat_four_bytes (b0 b1 b2 b3 : Byte) : leNat [b0, b1, b2, b3] = (b3 ++ b2 ++ b1 ++ b0).toNat := by
  simp only [leNat, toNat_append_byte, Nat.mul_zero, Nat.add_zero]

theorem leNat_eight_bytes (b0 b1 b2 b3 b4 b5 b6 b7 : Byte) :
    leNat [b0, b1, b2, b3, b4, b5, b6, b7] = (b7 ++ b6 ++ b5 ++ b4 ++ b3 ++ b2 ++ b1 ++ b0).toNat := by
  simp only [leNat, toNat_append_byte, Nat.mul_zero, Nat.add_zero]

section
variable {w : Width}

/-- The bytes of a group, concatenated, enter the word by zero-extension (00_scope.md R6). -/
theorem leWord_eq_setWidth {n : Nat} {x : BitVec n} {g : List Byte} (h : leNat g = x.toNat) :
    leWord w g = x.setWidth w.bits := by
  rw [leWord, h, BitVec.ofNat_toNat]

/-! ## The length and the finalization -/

theorem toNat_addLen (acc : Word w) (n : Nat) :
    (addLen acc n).toNat = (acc.toNat + n % 2 ^ w.bits) % 2 ^ w.bits := by
  rw [addLen, BitVec.toNat_add, BitVec.toNat_ofNat]

/-- Only the length modulo `2^W` is added. -/
theorem addLen_add_mul (acc : Word w) (n k : Nat) : addLen acc (n + k * 2 ^ w.bits) = addLen acc n := by
  apply BitVec.eq_of_toNat_eq
  rw [toNat_addLen, toNat_addLen, Nat.add_mul_mod_self_right]

variable {n : Nat}

theorem finalize_long (seed : Word w) (v : Lanes w) (h : blockBytes w ≤ n) (T : List Byte) :
    finalize seed v n T = avalanche (tail (addLen (mergeLanes v) n) T) := by
  rw [finalize, startAcc, if_pos h]

theorem finalize_short (seed : Word w) (v : Lanes w) (h : n < blockBytes w) (T : List Byte) :
    finalize seed v n T = avalanche (tail (addLen (seedShort seed) n) T) := by
  rw [finalize, startAcc, if_neg (Nat.not_le.mpr h)]

end

/-! ## The obligations -/

/-- Settles O48: each lane takes its own group, and the groups of an all-zero block are zero. -/
theorem blockRule : Obligations.BlockRule := by
  unfold Obligations.BlockRule
  refine ⟨fun w v g0 g1 g2 g3 => block_append v, fun w v => ?_⟩
  simp only [block, laneGroup_replicate_zero, round_zero_input]

/-- Settles O49, by the walk over a stream in groups: one block in front, too few bytes for one, and what is left. -/
theorem blocksRule : Obligations.BlocksRule := by
  unfold Obligations.BlocksRule
  intro w v B S
  obtain ⟨hdrop, hlength⟩ := blocks_tail v S
  refine ⟨fun hB => blocks_cons v hB S, blocks_short v, ?_, hlength⟩
  rw [hdrop, Nat.div_mul_self_eq_mod_sub_self]

/-- Settles O50, by the group in front and, below four bytes, the pass over single bytes. -/
theorem tail64Rule : Obligations.Tail64Rule := by
  unfold Obligations.Tail64Rule
  refine fun acc g T => ⟨fun hg => tail64_group8 acc hg T, tail64_group4 acc, fun b hb => ?_, rfl⟩
  rw [tail64_eq_foldl _ hb, tail64_eq_foldl _ (Nat.lt_of_succ_lt hb), List.foldl_cons]

/-- Settles O51, by the group in front and, below four bytes, the pass over single bytes. -/
theorem tail32Rule : Obligations.Tail32Rule := by
  unfold Obligations.Tail32Rule
  refine fun acc g T => ⟨fun hg => tail32_group4 acc hg T, fun b hb => ?_, rfl⟩
  rw [tail32_eq_foldl _ hb, tail32_eq_foldl _ (Nat.lt_of_succ_lt hb), List.foldl_cons]

/-- Settles O52: the groups by their bytes, the rotations by the library's; the constants evaluate. -/
theorem tailStepRules : Obligations.TailStepRules := by
  unfold Obligations.TailStepRules
  refine ⟨fun acc b0 b1 b2 b3 b4 b5 b6 b7 => ?_, fun acc b0 b1 b2 b3 => ?_, fun acc b => ?_,
    fun acc b0 b1 b2 b3 => ?_, fun acc b => ?_⟩
  · rw [t64x8, rotl_eq_rotateLeft _ (by decide), leWord_eq_setWidth (leNat_eight_bytes ..), BitVec.setWidth_eq]
    rfl
  · rw [t64x4, rotl_eq_rotateLeft _ (by decide), leWord_eq_setWidth (leNat_four_bytes ..)]
    rfl
  · rw [t64x1, rotl_eq_rotateLeft _ (by decide)]
    rfl
  · rw [t32x4, rotl_eq_rotateLeft _ (by decide), leWord_eq_setWidth (leNat_four_bytes ..), BitVec.setWidth_eq]
    rfl
  · rw [t32x1, rotl_eq_rotateLeft _ (by decide)]
    rfl

/-- Settles O53: the length counts modulo `2^W`, and in the long phase the start is the merged lanes at any length. -/
theorem addLengthRule : Obligations.AddLengthRule := by
  unfold Obligations.AddLengthRule
  refine ⟨fun w => toNat_addLen, fun seed v n k T hn => ?_⟩
  have hlong : 16 ≤ n + k * 2 ^ 32 := hn.trans (Nat.le_add_right _ _)
  rw [finalize_long seed v hn, finalize_long seed v hlong, addLen_add_mul (w := .w32)]

/-- Settles O54, by the choice of the start on either side of `n = BS`. -/
theorem finalizeRule : Obligations.FinalizeRule := by
  unfold Obligations.FinalizeRule
  exact fun w seed v n T => ⟨fun h => finalize_long seed v h T, fun h => finalize_short seed v h T⟩

end Sys2Proof.Machine
end

section
/-! PROOFS. 42_accumulator.md: the dispatch (R130), the rule of each command (R131 to R135), and the laws of the source
(R136 to R138, R141). The laws rest on `Engine.holding`: the one fault-free engine that holds a stream. -/

namespace Sys2Proof

section
variable {w : Width} {c : Command w}

/-- RDSTATUS has one command word. -/
theorem decode_rdstatus (h : decode c = .ok .rdstatus) : c.cmd = 5 := by
  simpa using decode_cases h

/-- A bare word is the same command on the ports of either build (30_encoding.md R57). -/
theorem decode_wordCommand (w w' : Width) (nbits n : Nat) :
    decode (wordCommand w nbits n) = decode (wordCommand w' nbits n) := by
  have hport (w : Width) : (0 : Word w).setWidth 64 = 0#64 := BitVec.setWidth_zero _ _
  simp only [decode, wordCommand, hport]

theorem decode_of_decodeTableWord {nbits n : Nat} {i : Instr} (h : decodeTableWord nbits n = some i) (w : Width) :
    decode (wordCommand w nbits n) = .ok i := by
  rw [decode_wordCommand w Config.resetWidth]
  rw [decodeTableWord] at h
  split at h
  · cases h
  · cases hd : decode (wordCommand Config.resetWidth nbits n) with
    | ok j => simpa [hd, Except.toOption] using h
    | error k => simp [hd, Except.toOption] at h

end

namespace Machine

section
variable {w : Width} {e : Engine w} {p : Port w} {c : Command w} {i : Instr} {x : Word w} {D S : List Byte}
  {rest : List (HostEvent w)} {rs : List (Response w)} {k : FaultCode}

/-! ## The dispatch -/

/-- A legal word is performed as its command, with the event taken (42_accumulator.md R130). -/
theorem step_of_decode (hd : decode c = .ok i) :
    step (instOf e (.command c :: rest) rs) = exec i (instOf e rest rs) := by
  rw [step_command, hd]

/-- While `FAULT = 1` every command but RDSTATUS is ignored (60_exceptions.md R168). -/
theorem exec_faulted (hf : e.fault = true) (hi : i ≠ .rdstatus) :
    exec i ⟨w, e, p⟩ = .next ⟨w, e, p.deliver .ignored 0⟩ := by
  have hignored (body : State → State) := unlessFaulted_faulted (s := ⟨w, e, p⟩) (body := body) hf
  cases i with
  | rdstatus => exact absurd rfl hi
  | init | ingest | digest | oneshot => exact congrArg Host.Outcome.next (hignored _)

/-- While `FAULT = 1` every word but that of RDSTATUS is ignored, legal or not (60_exceptions.md R168). -/
theorem step_faulted (hf : e.fault = true) (hc : c.cmd ≠ 5) :
    step (instOf e (.command c :: rest) rs) = .next (instOf e rest (rs ++ [⟨.ignored, 0⟩])) := by
  cases hd : decode c with
  | ok i =>
    have hi : i ≠ .rdstatus := by
      rintro rfl
      exact hc (decode_rdstatus hd)
    exact step_of_exec hd (exec_faulted hf hi)
  | error k =>
    rw [step_of_illegal (by simp [hd]), instOf, rejectIllegal_faulted hf]
    rfl

/-! ## The faults of the commands -/

theorem noInit_word (w : Width) : FaultCode.noInit.word w = 2 := by cases w <;> rfl

theorem lenOvf_word (w : Width) : FaultCode.lenOvf.word w = 3 := by cases w <;> rfl

theorem invariant_word (w : Width) : FaultCode.invariant.word w = 4 := by cases w <;> rfl

/-- INGEST and DIGEST make one check first: without an accumulator they raise NOINIT (60_exceptions.md R162). -/
theorem checked_noInit {body : State → State} (hf : e.fault = false) (hv : e.valid = false) :
    unlessFaulted ⟨w, e, p⟩ (fun s => withAccumulator s body) = ⟨w, e.record .noInit, p.deliver .faulted 2⟩ := by
  rw [unlessFaulted_live hf, withAccumulator_noInit hv, raiseFault_mk, noInit_word]

/-- Then they raise INVARIANT if the buffer is at its capacity (60_exceptions.md R164). -/
theorem checked_invariant {body : State → State} (hf : e.fault = false) (hv : e.valid = true)
    (hb : blockBytes w ≤ e.bufLen) :
    unlessFaulted ⟨w, e, p⟩ (fun s => withAccumulator s body) = ⟨w, e.record .invariant, p.deliver .faulted 4⟩ := by
  rw [unlessFaulted_live hf, withAccumulator_invariant hv hb, raiseFault_mk, invariant_word]

theorem exec_oneshot_lenOvf (seed : BitVec 64) (hf : e.fault = false) (hD : Config.maxLength < D.length) :
    exec (.oneshot seed D) ⟨w, e, p⟩ = .next ⟨w, e.record .lenOvf, p.deliver .faulted 3⟩ := by
  simp [exec, execOneshot, unlessFaulted_live (s := ⟨w, e, p⟩) hf, hD, lenOvf_word]

/-! ## The digests -/

theorem exec_oneshot_seed (x : Word w) (hf : e.fault = false) (hD : D.length ≤ Config.maxLength) :
    exec (.oneshot (x.setWidth 64) D) ⟨w, e, p⟩ = .next ⟨w, e, p.deliver .value (oneshotDigest x D)⟩ := by
  rw [exec_oneshot_live _ hf hD, seedOperand_setWidth]

theorem tail_nil (acc : Word w) : tail acc [] = acc := by cases w <;> rfl

/-- An empty stream finalizes from the seed alone (42_accumulator.md R141). -/
theorem finalize_empty (seed : Word w) (v : Lanes w) : finalize seed v 0 [] = avalanche (seed + P5 w) := by
  rw [finalize_short seed v (blockBytes_pos w), tail_nil, addLen, BitVec.add_zero, seedShort]

theorem oneshotDigest_nil (x : Word w) : oneshotDigest x [] = avalanche (x + P5 w) := by
  rw [oneshotDigest, blocks_short (S := []) _ (blockBytes_pos w)]
  exact finalize_empty x _

theorem exec_oneshot_nil (x : Word w) (hf : e.fault = false) :
    exec (.oneshot (x.setWidth 64) []) ⟨w, e, p⟩ = .next ⟨w, e, p.deliver .value (avalanche (x + P5 w))⟩ := by
  rw [exec_oneshot_seed (D := []) x hf (Nat.zero_le _), oneshotDigest_nil]

theorem digest_empty (htotal : e.total = 0) (hbuf : e.buf = []) : e.digest = avalanche (e.seed + P5 w) := by
  rw [Engine.digest, htotal, hbuf]
  exact finalize_empty e.seed e.lanes

/-! ## What INGEST leaves -/

theorem append_bufLen (e : Engine w) (D : List Byte) :
    (e.append D).bufLen = (e.bufLen + D.length) % blockBytes w := by
  rw [Engine.bufLen, append_buf, (blocks_tail _ _).2, List.length_append, Engine.bufLen]

/-- No block completes: the data is buffered (42_accumulator.md R132). -/
theorem append_short (h : e.bufLen + D.length < blockBytes w) :
    e.append D = { e with buf := e.buf ++ D, total := e.total + BitVec.ofNat 64 D.length } := by
  rw [Engine.append, blocks_short e.lanes (by simpa [Engine.bufLen] using h)]

theorem pushByte_full {b : Byte} (h : (e.buf ++ [b]).length = blockBytes w) :
    e.pushByte b = { e with lanes := block e.lanes (e.buf ++ [b]), buf := [] } := if_pos h

theorem pushByte_room {b : Byte} (h : (e.buf ++ [b]).length ≠ blockBytes w) :
    e.pushByte b = { e with buf := e.buf ++ [b] } := if_neg h

/-- The byte-at-a-time form leaves the lanes and the buffer that the blocks of the whole leave (42_accumulator.md R132). -/
theorem foldl_pushByte (D : List Byte) (h : e.bufLen < blockBytes w) :
    D.foldl Engine.pushByte e =
      { e with lanes := (blocks e.lanes (e.buf ++ D)).1, buf := (blocks e.lanes (e.buf ++ D)).2 } := by
  induction D generalizing e with
  | nil => rw [List.append_nil, blocks_short e.lanes h, List.foldl_nil]
  | cons b D ih =>
    rw [List.foldl_cons, List.append_cons]
    by_cases hfull : (e.buf ++ [b]).length = blockBytes w
    · rw [pushByte_full hfull, blocks_cons e.lanes hfull D]
      exact ih (blockBytes_pos w)
    · rw [pushByte_room hfull]
      refine ih (Nat.lt_of_le_of_ne ?_ hfull)
      simpa [Engine.bufLen] using h

/-! ## The engine that holds a stream -/

/-- The fault-free engine whose accumulator holds the stream `S` hashed from the seed `x` (10_state.md R21). -/
def Engine.holding (x : Word w) (S : List Byte) (k : FaultCode) : Engine w where
  lanes := (blocks (seedLanes x) S).1
  seed := x
  buf := (blocks (seedLanes x) S).2
  total := BitVec.ofNat 64 S.length
  valid := true
  fault := false
  fcode := k

theorem holds_holding (hS : S.length ≤ Config.maxLength) : (Engine.holding x S k).Holds x S := by
  obtain ⟨htail, hlen⟩ := blocks_tail (seedLanes x) S
  refine ⟨?_, hlen, ?_, rfl, rfl⟩
  · exact Nat.mod_eq_of_lt (hS.trans_lt (by decide))
  · rw [Engine.bufLen, Engine.holding, hlen, htail]

/-- Holding a stream fixes the whole accumulator. -/
theorem Engine.Holds.eq_holding (h : e.Holds x S) (hv : e.valid = true) (hf : e.fault = false) :
    e = .holding x S e.fcode := by
  have htotal : e.total = BitVec.ofNat 64 S.length := by rw [← h.total_eq, BitVec.ofNat_toNat, BitVec.setWidth_eq]
  rw [Engine.holding, ← h.lanes_eq, ← h.buf_tail, ← htotal, ← hv, ← hf, ← h.seed_eq]

theorem ready_holding (hS : S.length ≤ Config.maxLength) : (Engine.holding x S k).Ready :=
  ⟨rfl, rfl, (holds_holding hS).bufLen_lt⟩

theorem exec_ingest_holding (hS : (S ++ D).length ≤ Config.maxLength) :
    exec (.ingest D) ⟨w, .holding x S k, p⟩ = .next ⟨w, .holding x (S ++ D) k, p.deliver .done 0⟩ := by
  have hlen : S.length + D.length ≤ Config.maxLength := by rwa [List.length_append] at hS
  have hlenS : S.length ≤ Config.maxLength := by omega
  have hholds : (Engine.holding x S k).Holds x S := holds_holding hlenS
  have hl : (Engine.holding x S k).total.toNat + D.length ≤ Config.maxLength := by rwa [hholds.total_eq]
  rw [exec_ingest_ready (ready_holding hlenS) hl, (hholds.append hl).eq_holding rfl rfl]
  rfl

/-- DIGEST answers what ONESHOT answers of the stream held (42_accumulator.md R136). -/
theorem exec_digest_holding (hS : S.length ≤ Config.maxLength) :
    exec .digest ⟨w, .holding x S k, p⟩ =
      .next ⟨w, .holding x S k, p.deliver .value (oneshotDigest x S)⟩ := by
  rw [exec_digest_ready (ready_holding hS), (holds_holding hS).digest_eq]

/-! ## Sequences of commands -/

theorem execAll_cons {s t : State} (h : exec i s = .next t) (is : List Instr) : execAll (i :: is) s = execAll is t := by
  simp only [execAll, h]

theorem execAll_append {s t : State} {is : List Instr} (h : execAll is s = .next t) (js : List Instr) :
    execAll (is ++ js) s = execAll js t := by
  induction is generalizing s with
  | nil => cases h; rfl
  | cons i is ih =>
    rw [List.cons_append, execAll]
    rw [execAll] at h
    cases hi : exec i s with
    | next u => rw [hi] at h; exact ih h
    | fault r => rw [hi] at h; cases h
    | refused r => rw [hi] at h; cases h

/-- INIT and INGESTs lead to the one engine that holds their data, whatever the chunks and whatever went before. -/
theorem execAll_init_ingests (x : Word w) (Cs : List (List Byte)) (hf : e.fault = false)
    (hl : Cs.flatten.length ≤ Config.maxLength) :
    execAll (.init (x.setWidth 64) :: Cs.map .ingest) ⟨w, e, p⟩ = .next ⟨w, .holding x Cs.flatten e.fcode,
      ⟨p.pending, p.responses ++ List.replicate (Cs.length + 1) ⟨.done, 0⟩⟩⟩ := by
  obtain ⟨e', hall, hS, hv', hf', hk⟩ := execAll_ingest_holds (p := p.deliver .done 0) Cs
    (holds_initialise (e := e) x) hf rfl (by simpa using hl)
  rw [execAll_cons (exec_init_live _ hf), seedOperand_setWidth, hall, hS.eq_holding hv' hf', hk]
  simp [List.replicate_succ]

/-- INIT, INGESTs and DIGEST answer ONESHOT's digest (42_accumulator.md R136). -/
theorem execAll_init_ingests_digest (x : Word w) (Cs : List (List Byte)) (hf : e.fault = false)
    (hl : Cs.flatten.length ≤ Config.maxLength) :
    execAll (.init (x.setWidth 64) :: Cs.map .ingest ++ [.digest]) ⟨w, e, p⟩ =
      .next ⟨w, .holding x Cs.flatten e.fcode, ⟨p.pending,
        p.responses ++ List.replicate (Cs.length + 1) ⟨.done, 0⟩ ++ [⟨.value, oneshotDigest x Cs.flatten⟩]⟩⟩ := by
  rw [execAll_append (execAll_init_ingests x Cs hf hl), execAll_cons (exec_digest_holding hl)]
  rfl

/-- On a ready engine a reading command answers a value and writes nothing (20_memory.md R36). -/
theorem exec_reading_ready (hr : e.Ready) (hi : readsOnly i = true) (hwf : i.wf w = true) :
    ∃ v, ∀ p : Port w, exec i ⟨w, e, p⟩ = .next ⟨w, e, p.deliver .value v⟩ := by
  cases i with
  | init | ingest => cases hi
  | digest => exact ⟨_, fun _ => exec_digest_ready hr⟩
  | oneshot seed D =>
    obtain ⟨-, hD⟩ : seedFits w seed = true ∧ dataFits D = true := by simpa [Instr.wf] using hwf
    obtain ⟨hf, -, -⟩ := hr
    exact ⟨_, fun _ => exec_oneshot_live seed hf (dataFits_iff.1 hD)⟩
  | rdstatus => exact ⟨e.statusWord, fun _ => rfl⟩

theorem execAll_reading_ready (hr : e.Ready) (is : List Instr)
    (his : ∀ i ∈ is, readsOnly i = true ∧ i.wf w = true) :
    ∃ rs : List (Response w), rs.length = is.length ∧
      ∀ p : Port w, execAll is ⟨w, e, p⟩ = .next ⟨w, e, ⟨p.pending, p.responses ++ rs⟩⟩ := by
  induction is with
  | nil => exact ⟨[], rfl, fun p => by simp [execAll]⟩
  | cons i is ih =>
    obtain ⟨⟨hi, hwf⟩, htail⟩ := List.forall_mem_cons.1 his
    obtain ⟨v, hexec⟩ := exec_reading_ready hr hi hwf
    obtain ⟨rs, hlen, hall⟩ := ih htail
    refine ⟨⟨.value, v⟩ :: rs, by simp [hlen], fun p => ?_⟩
    rw [execAll_cons (hexec p), hall]
    simp

end

/-! ## The obligations -/

/-- Settles O5: the decoder chooses the arm. -/
theorem stepPerformsTheDecodedCommand : Obligations.StepPerformsTheDecodedCommand := by
  unfold Obligations.StepPerformsTheDecodedCommand
  exact fun w e c rest rs i hd => step_of_decode hd

/-- Settles O7: a faulted engine by the word of RDSTATUS, a fault-free one by the six things a word can be. -/
theorem dispatchRule : Obligations.DispatchRule := by
  unfold Obligations.DispatchRule
  refine fun w e c rest rs => ⟨fun _ hc => ?_, step_faulted, fun hf hc => ?_, fun _ => ⟨?_, ?_, ?_, ?_, ?_⟩⟩
  · exact step_of_exec (decode_word5 hc) rfl
  · have hillegal : ∀ i, decode c ≠ .ok i := fun i hd => hc (decode_ok_iff.1 ⟨i, hd⟩)
    obtain ⟨-, hstep⟩ := onlyFiveWordsAreLegal
    obtain ⟨hreject, -⟩ := hstep w e c rest rs hillegal
    exact hreject hf
  · exact fun hc => step_of_decode (decode_word1 hc)
  · exact fun hc => step_of_decode (decode_word2 hc)
  · exact fun hc => step_of_decode (decode_word3 hc)
  · exact fun hc => step_of_decode (decode_word4 hc)
  · exact fun hc => step_of_decode (decode_word5 hc)

/-- Settles O16: the checks in order; the body by the blocks of the buffered bytes and the data together, which the
byte-at-a-time form processes too. -/
theorem ingestRule : Obligations.IngestRule := by
  unfold Obligations.IngestRule
  refine fun w e p D hf => ⟨fun hv => ?_, fun hv hb => ?_, fun hv hb hl => ?_, fun hv hb hl => ?_⟩
  · exact congrArg Host.Outcome.next (checked_noInit hf hv)
  · exact congrArg Host.Outcome.next (checked_invariant hf hv hb)
  · rw [exec_ingest_lenOvf ⟨hf, hv, hb⟩ hl, lenOvf_word]
    rfl
  · refine ⟨e.append D, exec_ingest_ready ⟨hf, hv, hb⟩ hl, ?_, append_bufLen e D, toNat_append_total hl, rfl, hv, hf,
      rfl, ?_, fun hshort => ?_, ?_⟩
    · rw [append_lanes, append_buf, Prod.mk.eta, blocks, eachGroup, List.length_append, Engine.bufLen]
    · rw [foldl_pushByte D hb]
      rfl
    · rw [append_short hshort]
      exact ⟨rfl, rfl⟩
    · rintro rfl
      rw [append_short (D := []) hb]
      simp

/-- Settles O38: every partition leads to the one engine that holds the data. -/
theorem chunkInvariance : Obligations.ChunkInvariance := by
  unfold Obligations.ChunkInvariance
  refine fun w x D hD => ⟨(blocks (seedLanes x) D).1, (blocks (seedLanes x) D).2, oneshotDigest x D, fun e hf =>
    ⟨fun p => exec_oneshot_seed x hf hD, ?_⟩⟩
  rintro p Cs rfl
  exact ⟨_, execAll_init_ingests x Cs hf hD, exec_digest_holding hD⟩

/-- Settles O39: reading commands keep the engine, so both DIGESTs answer its digest. -/
theorem idempotentDigest : Obligations.IdempotentDigest := by
  unfold Obligations.IdempotentDigest
  intro w e p mid hr hmid
  obtain ⟨rs, hlen, hall⟩ := execAll_reading_ready hr mid hmid
  refine ⟨e.digest, rs, hlen, ?_⟩
  rw [execAll_cons (exec_digest_ready hr), execAll_append (hall _), execAll_cons (exec_digest_ready hr)]
  simp [execAll, Port.deliver]

/-- Settles O40: the first DIGEST keeps the engine that holds the data so far, and the second INGEST appends to it. -/
theorem digestDoesNotDisturbTheStream : Obligations.DigestDoesNotDisturbTheStream := by
  unfold Obligations.DigestDoesNotDisturbTheStream
  intro w e p x D E hf hl
  have hD : D.length ≤ Config.maxLength := by
    rw [List.length_append] at hl
    omega
  have hfirst := execAll_init_ingests_digest (p := p) x [D] hf (by simpa using hD)
  rw [List.flatten_singleton] at hfirst
  have hall := execAll_append hfirst [.ingest E, .digest]
  rw [execAll_cons (exec_ingest_holding hl), execAll_cons (exec_digest_holding hl)] at hall
  refine ⟨.holding x (D ++ E) e.fcode, oneshotDigest x D, oneshotDigest x (D ++ E), ?_, exec_oneshot_seed x hf hl,
    exec_oneshot_seed x hf hD⟩
  simpa [execAll, Port.deliver, List.replicate_succ] using hall

/-- Settles O42: no chunk and one chunk, with the digest of no data. -/
theorem edgeCaseDigests : Obligations.EdgeCaseDigests := by
  unfold Obligations.EdgeCaseDigests
  intro w e p x D hf hD
  have hempty := execAll_init_ingests_digest (p := p) x [] hf (Nat.zero_le _)
  have hone := execAll_init_ingests_digest (p := p) x [D] hf (by simpa using hD)
  refine ⟨⟨.holding x [] e.fcode, ?_⟩, exec_oneshot_nil x hf, .holding x D e.fcode, oneshotDigest x D, ?_,
    exec_oneshot_seed x hf hD⟩
  · simpa [oneshotDigest_nil] using hempty
  · simpa [List.replicate_succ] using hone

/-- Settles O6: a bare word decodes alike on the ports of either build, and what was pending stays so. -/
theorem stepPerformsThePresentedWord : Obligations.StepPerformsThePresentedWord := by
  unfold Obligations.StepPerformsThePresentedWord
  rintro ⟨w, e, ⟨pending, rs⟩⟩ nbits n i h
  exact step_of_decode (decode_of_decodeTableWord h w)

/-- Settles O15, by the check of FAULT. -/
theorem initRule : Obligations.InitRule := by
  unfold Obligations.InitRule
  refine fun w e p x => ⟨fun hf => ?_, exec_init_faulted _⟩
  rw [exec_init_live _ hf, seedOperand_setWidth, Engine.initialise, hf]
  rfl

/-- Settles O17: the checks in order, then the digest; the empty stream starts from the short accumulator. -/
theorem digestRule : Obligations.DigestRule := by
  unfold Obligations.DigestRule
  refine fun w e p hf => ⟨fun hv => ?_, fun hv hb => ?_, fun hv hb => ?_, fun hv htotal hbuf => ?_⟩
  · exact congrArg Host.Outcome.next (checked_noInit hf hv)
  · exact congrArg Host.Outcome.next (checked_invariant hf hv hb)
  · exact exec_digest_ready ⟨hf, hv, hb⟩
  · have hb : e.bufLen < blockBytes w := by
      rw [Engine.bufLen, hbuf]
      exact blockBytes_pos w
    rw [exec_digest_ready ⟨hf, hv, hb⟩, digest_empty htotal hbuf]

/-- Settles O18, by the length check, and the digest of no data. -/
theorem oneshotRule : Obligations.OneshotRule := by
  unfold Obligations.OneshotRule
  refine fun w e p x D hf => ⟨exec_oneshot_lenOvf _ hf, exec_oneshot_seed x hf, exec_oneshot_nil x hf⟩

/-- Settles O19: RDSTATUS makes no check of FAULT, every other command does; the corner cases evaluate. -/
theorem rdstatusRule : Obligations.RdstatusRule := by
  unfold Obligations.RdstatusRule
  exact ⟨fun w e p => rfl, fun w e p i => exec_faulted, by decide, by decide, by decide, by decide⟩

end Machine

end Sys2Proof
end

section
/-! PROOFS. 60_exceptions.md: what raises a fault (R161 to R163) and in which order (R165), what the fault entry writes
(R166, R167), what a faulted engine does until reset (R168, R169), and the idle engine (R176). -/

namespace Sys2Proof

/-- The words that R161 names are all but 1 to 5. -/
theorem illegal_fields_iff (cmd : BitVec 32) :
    (cmd.extractLsb' 4 28 ≠ 0 ∨ cmd.extractLsb' 0 4 = 0 ∨ 6 ≤ (cmd.extractLsb' 0 4).toNat) ↔
      ¬(1 ≤ cmd.toNat ∧ cmd.toNat ≤ 5) := by
  have hrsv : cmd.extractLsb' 4 28 = 0 ↔ cmd.toNat < 16 := rsvField_eq_zero cmd
  have hop : (cmd.extractLsb' 0 4).toNat = cmd.toNat % 16 := opField_toNat cmd
  have hzero : cmd.extractLsb' 0 4 = 0 ↔ cmd.toNat % 16 = 0 := by
    rw [← BitVec.toNat_inj, hop]
    rfl
  rw [Ne, hrsv, hzero, hop]
  omega

namespace Machine

section
variable {w : Width} {e e' : Engine w} {p : Port w} {c : Command w} {i : Instr} {r : Response w}
  {rest rest' : List (HostEvent w)} {rs rs' : List (Response w)}

theorem instOf_inj : instOf e rest rs = instOf e' rest' rs' ↔ e = e' ∧ rest = rest' ∧ rs = rs' := by
  simp [instOf]

/-! ## What raises a fault -/

/-- A fault-free engine rejects every word but 1 to 5 (60_exceptions.md R161). -/
theorem step_illegal (hf : e.fault = false) (hc : ¬(1 ≤ c.cmd.toNat ∧ c.cmd.toNat ≤ 5)) :
    step (instOf e (.command c :: rest) rs) = .next (instOf (e.record .illegal) rest (rs ++ [⟨.faulted, 1⟩])) := by
  have hd : ∀ i, decode c ≠ .ok i := fun i hi => hc (decode_ok_iff.1 ⟨i, hi⟩)
  rw [step_of_illegal hd, instOf, rejectIllegal_live hf, illegal_word]
  rfl

/-- The checks of INGEST and DIGEST raise NOINIT or INVARIANT, so only past them, on a ready engine, could another code
be recorded (60_exceptions.md R162, R164). -/
theorem ready_of_checked_illegal {body : State → State} (hf : e.fault = false)
    (hk : (unlessFaulted ⟨w, e, p⟩ fun s => withAccumulator s body).engine.fcode = .illegal) : e.Ready := by
  cases hv : e.valid with
  | false =>
    rw [checked_noInit hf hv] at hk
    cases hk
  | true =>
    refine ⟨hf, hv, Nat.lt_of_not_le fun hb => ?_⟩
    rw [checked_invariant hf hv hb] at hk
    cases hk

/-- A command never raises ILLEGAL: that code is left to the words that stand for no command (60_exceptions.md R161). -/
theorem exec_fcode_ne_illegal {t : State} (hf : e.fault = false) (h : exec i ⟨w, e, p⟩ = .next t)
    (ht : t.engine.fault = true) : t.engine.fcode ≠ .illegal := by
  intro hk
  cases i with
  | init x =>
    rw [exec_init_live x hf] at h
    cases h
    simp [hf] at ht
  | ingest D =>
    have hr : e.Ready := by
      cases h
      exact ready_of_checked_illegal hf hk
    obtain hl | hl := Nat.lt_or_ge Config.maxLength (e.total.toNat + D.length)
    · rw [exec_ingest_lenOvf hr hl] at h
      cases h
      cases hk
    · rw [exec_ingest_ready hr hl] at h
      cases h
      simp [hf] at ht
  | digest =>
    have hr : e.Ready := by
      cases h
      exact ready_of_checked_illegal hf hk
    rw [exec_digest_ready hr] at h
    cases h
    simp [hf] at ht
  | oneshot x D =>
    obtain hl | hl := Nat.lt_or_ge Config.maxLength D.length
    · rw [exec_oneshot_lenOvf x hf hl] at h
      cases h
      cases hk
    · rw [exec_oneshot_live x hf hl] at h
      cases h
      simp [hf] at ht
  | rdstatus =>
    cases h
    simp [hf] at ht

/-- An answer that sets FAULT is the fault entry: it records a code and answers FAULTED with it (60_exceptions.md R166). -/
theorem Answer.raised (h : Answer e c e' r) (hf : e.fault = false) (hf' : e'.fault = true) :
    ∃ k : FaultCode, k ≠ .none ∧ e' = e.record k ∧ r = ⟨.faulted, k.word w⟩ := by
  cases h with
  | faulted k _ hk => exact ⟨k, hk, rfl, rfl⟩
  | ignored | read | initialised | appended => simp [hf] at hf'

/-! ## A faulted engine and an idle one -/

/-- RDSTATUS is performed whatever FAULT says (60_exceptions.md R168). -/
theorem step_rdstatus (hc : c.cmd = 5) :
    step (instOf e (.command c :: rest) rs) = .next (instOf e rest (rs ++ [⟨.value, e.status.setWidth w.bits⟩])) :=
  step_of_exec (decode_word5 hc) rfl

/-- With nothing pending no step changes the state (60_exceptions.md R176). -/
theorem run_idle (n : Nat) : core.run n (instOf e [] rs) = .next (instOf e [] rs) := by
  induction n with
  | zero => exact run_zero _
  | succ n ih => rw [run_succ (step_idle rs), ih]

/-- A faulted engine keeps its whole state over any number of commands (60_exceptions.md R168, R169). -/
theorem run_faulted (hf : e.fault = true) (cs : List (Command w)) (n : Nat) :
    ∃ (cs' : List (Command w)) (rs' : List (Response w)),
      core.run n (instOf e (cs.map .command) rs) = .next (instOf e (cs'.map .command) rs') := by
  induction n generalizing cs rs with
  | zero => exact ⟨cs, rs, run_zero _⟩
  | succ n ih =>
    cases cs with
    | nil => exact ⟨[], rs, run_idle (n + 1)⟩
    | cons c cs =>
      rw [List.map_cons]
      by_cases hc : c.cmd = 5
      · rw [run_succ (step_rdstatus hc)]
        exact ih cs
      · rw [run_succ (step_faulted hf hc)]
        exact ih cs

end

/-! ## The obligations -/

/-- Settles O21, by the answers a command word can have: one alone sets FAULT, and it is the fault entry. -/
theorem faultEntryWritesOnlyTheStatus : Obligations.FaultEntryWritesOnlyTheStatus := by
  unfold Obligations.FaultEntryWritesOnlyTheStatus
  intro w e e' c rest rest' rs rs' hf hf' hstep
  obtain ⟨f, r, hcommand, hans⟩ := step_command_answer e c rest rs
  rw [hcommand, Host.Outcome.next.injEq, instOf_inj] at hstep
  obtain ⟨rfl, rfl, rfl⟩ := hstep
  obtain ⟨k, hk, rfl, rfl⟩ := hans.raised hf hf'
  exact ⟨k, hk, rfl, sameAccumulator_record k, rfl, rfl⟩

/-- Settles O22: the words named are those that stand for no command, and a command never raises ILLEGAL. -/
theorem illegalRule : Obligations.IllegalRule := by
  unfold Obligations.IllegalRule
  intro w e c rest rs hf
  rw [illegal_fields_iff]
  refine ⟨step_illegal hf, fun hstep hlegal => ?_⟩
  obtain ⟨i, hd⟩ := decode_ok_iff.2 hlegal
  rw [step_of_decode hd] at hstep
  exact exec_fcode_ne_illegal hf hstep rfl rfl

/-- Settles O24: past the bound LENOVF is recorded, and within it INGEST answers DONE and ONESHOT answers VALUE. -/
theorem lenOvfRule : Obligations.LenOvfRule := by
  unfold Obligations.LenOvfRule
  refine fun w e p x D => ⟨fun hr => ⟨fun hl => ?_, fun h => ?_⟩, fun hf => ⟨exec_oneshot_lenOvf _ hf, fun h => ?_⟩⟩
  · rw [exec_ingest_lenOvf hr hl, lenOvf_word]
    rfl
  · by_contra hl
    rw [exec_ingest_ready hr (Nat.not_lt.1 hl)] at h
    simp [Port.deliver] at h
  · by_contra hl
    rw [exec_oneshot_seed x hf (Nat.not_lt.1 hl)] at h
    simp [Port.deliver] at h

/-- Settles O25: one clause of the dispatch or of the command's own rule for each fault, in the order of R165. -/
theorem faultPriority : Obligations.FaultPriority := by
  unfold Obligations.FaultPriority
  refine fun w e c rest rs => ⟨step_faulted, step_illegal, fun hf hc hv => ?_, fun hf hc hv hb => ?_,
    fun hf hc hv hb hl => ?_, fun hf hc hl => ?_⟩
  · have hchecked (body : State → State) := checked_noInit (p := ⟨rest, rs⟩) (body := body) hf hv
    obtain hc | hc := hc
    · exact step_of_exec (decode_word2 hc) (congrArg Host.Outcome.next (hchecked _))
    · exact step_of_exec (decode_word3 hc) (congrArg Host.Outcome.next (hchecked _))
  · have hchecked (body : State → State) := checked_invariant (p := ⟨rest, rs⟩) (body := body) hf hv hb
    obtain hc | hc := hc
    · exact step_of_exec (decode_word2 hc) (congrArg Host.Outcome.next (hchecked _))
    · exact step_of_exec (decode_word3 hc) (congrArg Host.Outcome.next (hchecked _))
  · have hexec := exec_ingest_lenOvf (p := ⟨rest, rs⟩) ⟨hf, hv, hb⟩ hl
    rw [lenOvf_word] at hexec
    exact step_of_exec (decode_word2 hc) hexec
  · exact step_of_exec (decode_word4 hc) (exec_oneshot_lenOvf _ hf hl)

/-- Settles O26, by the one word that a faulted engine performs. -/
theorem faultedEngineIgnoresCommands : Obligations.FaultedEngineIgnoresCommands := by
  unfold Obligations.FaultedEngineIgnoresCommands
  exact fun w e c rest rs hf => ⟨step_faulted hf, step_rdstatus⟩

/-- Settles O27, by induction over the steps: each is idle or keeps the engine; reset leaves the reset engine. -/
theorem onlyResetClearsAFault : Obligations.OnlyResetClearsAFault := by
  unfold Obligations.OnlyResetClearsAFault
  exact fun w e rs hf => ⟨run_faulted hf, fun rest => ⟨Engine.reset w, step_reset rest rs, rfl, rfl⟩⟩

/-- Settles O9, by induction over the idle steps. -/
theorem idleEngineHoldsItsState : Obligations.IdleEngineHoldsItsState := by
  unfold Obligations.IdleEngineHoldsItsState
  exact fun w e rs n => run_idle n

/-- Settles O23: both commands make the check of VALID first. -/
theorem noInitRule : Obligations.NoInitRule := by
  unfold Obligations.NoInitRule
  exact fun w e p D hf hv =>
    ⟨congrArg Host.Outcome.next (checked_noInit hf hv), congrArg Host.Outcome.next (checked_noInit hf hv)⟩

end Machine

end Sys2Proof
end

section
/-! PROOFS. 70_reset_and_hazards.md: what reset leaves (R190, R191) and what no response shows of it
(93_implementation_defined.md U4), the commands before the first INIT (R192), and runs that end without a fault (R197,
R198). -/

namespace Sys2Proof.Machine

section
variable {w : Width} {e e' f : Engine w} {c : Command w} {r : Response w} {evs rest : List (HostEvent w)}
  {rs : List (Response w)}

/-! ## Steps -/

/-- No event stops the machine, and its width is hardwired (70_reset_and_hazards.md R197, 10_state.md R20). -/
theorem step_answers_instOf (e : Engine w) (evs : List (HostEvent w)) (rs : List (Response w)) :
    ∃ (e' : Engine w) (evs' : List (HostEvent w)) (rs' : List (Response w)),
      step (instOf e evs rs) = .next (instOf e' evs' rs') := by
  cases evs with
  | nil => exact ⟨_, _, _, step_idle rs⟩
  | cons ev rest =>
    cases ev with
    | command c =>
      obtain ⟨e', r, hstep, -⟩ := step_command_answer e c rest rs
      exact ⟨_, _, _, hstep⟩
    | reset => exact ⟨_, _, _, step_reset rest rs⟩
    | resetDuring c => exact ⟨_, _, _, step_resetDuring c rest rs⟩

/-! ## The commands before the first INIT -/

theorem step_init_live (hf : e.fault = false) (hc : c.cmd = 1) :
    step (instOf e (.command c :: rest) rs) = .next (instOf (e.initialise c.seedIn) rest (rs ++ [⟨.done, 0⟩])) := by
  have hexec := exec_init_live (p := ⟨rest, rs⟩) (c.seedIn.setWidth 64) hf
  rw [seedOperand_setWidth] at hexec
  exact step_of_exec (decode_word1 hc) hexec

theorem step_oneshot_live (hf : e.fault = false) (hc : c.cmd = 4) (hD : c.dataIn.length ≤ Config.maxLength) :
    step (instOf e (.command c :: rest) rs) =
      .next (instOf e rest (rs ++ [⟨.value, oneshotDigest c.seedIn c.dataIn⟩])) :=
  step_of_exec (decode_word4 hc) (exec_oneshot_seed c.seedIn hf hD)

theorem step_oneshot_lenOvf (hf : e.fault = false) (hc : c.cmd = 4) (hD : Config.maxLength < c.dataIn.length) :
    step (instOf e (.command c :: rest) rs) = .next (instOf (e.record .lenOvf) rest (rs ++ [⟨.faulted, 3⟩])) :=
  step_of_exec (decode_word4 hc) (exec_oneshot_lenOvf _ hf hD)

/-- INGEST and DIGEST raise NOINIT before the first INIT (70_reset_and_hazards.md R192). -/
theorem step_noInit (hf : e.fault = false) (hv : e.valid = false) (hc : c.cmd = 2 ∨ c.cmd = 3) :
    step (instOf e (.command c :: rest) rs) = .next (instOf (e.record .noInit) rest (rs ++ [⟨.faulted, 2⟩])) := by
  have hchecked (body : State → State) := checked_noInit (p := ⟨rest, rs⟩) (body := body) hf hv
  obtain hc | hc := hc
  · exact step_of_exec (decode_word2 hc) (congrArg Host.Outcome.next (hchecked _))
  · exact step_of_exec (decode_word3 hc) (congrArg Host.Outcome.next (hchecked _))

/-! ## What no response shows -/

/-- Two engines without an accumulator that agree on the elements to which reset gives a value: lanes, seed, buffer and
total may differ (70_reset_and_hazards.md R191). -/
structure Engine.AgreeBeforeInit (e f : Engine w) : Prop where
  valid_left  : e.valid = false
  valid_right : f.valid = false
  fault_eq    : e.fault = f.fault
  fcode_eq    : e.fcode = f.fcode

/-- Two engines that no host can tell apart: the same engine, or two that agree before the first INIT. -/
def Engine.Indistinguishable (e f : Engine w) : Prop := e = f ∨ e.AgreeBeforeInit f

theorem Engine.AgreeBeforeInit.status_eq (h : e.AgreeBeforeInit f) : e.status = f.status := by
  rw [Engine.status, Engine.status, h.valid_left, h.valid_right, h.fault_eq, h.fcode_eq]

theorem Engine.AgreeBeforeInit.record (h : e.AgreeBeforeInit f) (k : FaultCode) :
    (e.record k).AgreeBeforeInit (f.record k) :=
  ⟨h.valid_left, h.valid_right, rfl, rfl⟩

/-- INIT writes every element on which the two can differ (42_accumulator.md R131). -/
theorem Engine.AgreeBeforeInit.initialise_eq (h : e.AgreeBeforeInit f) (x : Word w) :
    e.initialise x = f.initialise x := by
  rw [Engine.initialise, Engine.initialise, h.fault_eq, h.fcode_eq]

/-- A command word is answered alike before the first INIT, and what is left cannot be told apart. -/
theorem Engine.AgreeBeforeInit.step_command (h : e.AgreeBeforeInit f) (c : Command w) (rest : List (HostEvent w))
    (rs : List (Response w)) :
    ∃ e' f' r, step (instOf e (.command c :: rest) rs) = .next (instOf e' rest (rs ++ [r])) ∧
      step (instOf f (.command c :: rest) rs) = .next (instOf f' rest (rs ++ [r])) ∧ e'.Indistinguishable f' := by
  by_cases hstatus : c.cmd = 5
  · refine ⟨e, f, _, step_rdstatus hstatus, ?_, .inr h⟩
    rw [h.status_eq]
    exact step_rdstatus hstatus
  cases hf : e.fault with
  | true => exact ⟨e, f, _, step_faulted hf hstatus, step_faulted (h.fault_eq ▸ hf) hstatus, .inr h⟩
  | false =>
    have hf' : f.fault = false := h.fault_eq ▸ hf
    by_cases hlegal : 1 ≤ c.cmd.toNat ∧ c.cmd.toNat ≤ 5
    · obtain ⟨i, hd⟩ := decode_ok_iff.2 hlegal
      obtain ⟨hc, -⟩ | ⟨hc, -⟩ | ⟨hc, -⟩ | ⟨hc, -⟩ | ⟨hc, -⟩ := decode_cases hd
      · exact ⟨_, _, _, step_init_live hf hc, step_init_live hf' hc, .inl (h.initialise_eq _)⟩
      · exact ⟨_, _, _, step_noInit hf h.valid_left (.inl hc), step_noInit hf' h.valid_right (.inl hc),
          .inr (h.record _)⟩
      · exact ⟨_, _, _, step_noInit hf h.valid_left (.inr hc), step_noInit hf' h.valid_right (.inr hc),
          .inr (h.record _)⟩
      · obtain hD | hD := Nat.lt_or_ge Config.maxLength c.dataIn.length
        · exact ⟨_, _, _, step_oneshot_lenOvf hf hc hD, step_oneshot_lenOvf hf' hc hD, .inr (h.record _)⟩
        · exact ⟨_, _, _, step_oneshot_live hf hc hD, step_oneshot_live hf' hc hD, .inr h⟩
      · exact absurd hc hstatus
    · exact ⟨_, _, _, step_illegal hf hlegal, step_illegal hf' hlegal, .inr (h.record _)⟩

/-- One step of the simulation: the same host events are taken, the same responses are delivered, and the engines still
cannot be told apart. -/
theorem Engine.Indistinguishable.step (h : e.Indistinguishable f) (evs : List (HostEvent w)) (rs : List (Response w)) :
    ∃ (e' f' : Engine w) (evs' : List (HostEvent w)) (rs' : List (Response w)),
      step (instOf e evs rs) = .next (instOf e' evs' rs') ∧
      step (instOf f evs rs) = .next (instOf f' evs' rs') ∧ e'.Indistinguishable f' := by
  obtain rfl | h := h
  · obtain ⟨e', evs', rs', hstep⟩ := step_answers_instOf e evs rs
    exact ⟨e', e', evs', rs', hstep, hstep, .inl rfl⟩
  cases evs with
  | nil => exact ⟨e, f, _, _, step_idle rs, step_idle rs, .inr h⟩
  | cons ev rest =>
    cases ev with
    | command c =>
      obtain ⟨e', f', r, hleft, hright, h'⟩ := h.step_command c rest rs
      exact ⟨e', f', _, _, hleft, hright, h'⟩
    | reset => exact ⟨_, _, _, _, step_reset rest rs, step_reset rest rs, .inl rfl⟩
    | resetDuring c => exact ⟨_, _, _, _, step_resetDuring c rest rs, step_resetDuring c rest rs, .inl rfl⟩

theorem Engine.Indistinguishable.run (h : e.Indistinguishable f) (n : Nat) (evs : List (HostEvent w))
    (rs : List (Response w)) :
    ∃ (e' f' : Engine w) (evs' : List (HostEvent w)) (rs' : List (Response w)),
      core.run n (instOf e evs rs) = .next (instOf e' evs' rs') ∧
      core.run n (instOf f evs rs) = .next (instOf f' evs' rs') ∧ e'.Indistinguishable f' := by
  induction n generalizing e f evs rs with
  | zero => exact ⟨e, f, evs, rs, run_zero _, run_zero _, h⟩
  | succ n ih =>
    obtain ⟨e', f', evs', rs', hleft, hright, h'⟩ := h.step evs rs
    rw [run_succ hleft, run_succ hright]
    exact ih h' evs' rs'

theorem Engine.Indistinguishable.status_eq (h : e.Indistinguishable f) : e.status = f.status := by
  obtain rfl | h := h
  · rfl
  · exact h.status_eq

/-- Once an accumulator exists there is nothing left in which the two differ. -/
theorem Engine.Indistinguishable.eq_of_valid (h : e.Indistinguishable f) (hv : e.valid = true) : e = f := by
  obtain rfl | h := h
  · rfl
  · simp [h.valid_left] at hv

/-! ## Runs that end without a fault -/

/-- An answer that leaves no fault was given by a fault-free engine, and says DONE or VALUE. -/
theorem Answer.live (h : Answer e c e' r) (hf' : e'.fault = false) :
    e.fault = false ∧ (r.rstat = .done ∨ r.rstat = .value) := by
  cases h with
  | ignored hf => simp [hf] at hf'
  | faulted => simp at hf'
  | initialised | appended => exact ⟨hf', .inl rfl⟩
  | read => exact ⟨hf', .inr rfl⟩

theorem safeRun_succ {s t u : State} (h : step s = .next t) (n : Nat) : SafeRun (n + 1) s u ↔ SafeRun n t u := by
  rw [SafeRun, SafeRun, run_succ h]

/-- A run that changes nothing ends without a fault only where there was none to begin with. -/
theorem safeRun_of_run_self {n : Nat} {s t : State} (h : core.run n s = .next s) (ht : SafeRun n s t) :
    t = s ∧ s.engine.fault = false := by
  obtain ⟨hrun, hf⟩ := ht
  rw [h] at hrun
  cases hrun
  exact ⟨rfl, hf⟩

/-- Only reset clears a fault, so a run of commands that ends fault-free never raised one (70_reset_and_hazards.md R198). -/
theorem safeRun_commands {n : Nat} {cs : List (Command w)} {t : State}
    (h : SafeRun n (instOf e (cs.map .command) rs) t) : e.fault = false ∧
      ∃ (e' : Engine w) (cs' : List (Command w)) (new : List (Response w)),
        t = instOf e' (cs'.map .command) (rs ++ new) ∧ ∀ r ∈ new, r.rstat = .done ∨ r.rstat = .value := by
  induction n generalizing e cs rs with
  | zero =>
    obtain ⟨rfl, hf⟩ := safeRun_of_run_self (run_zero _) h
    exact ⟨hf, e, cs, [], by simp, by simp⟩
  | succ n ih =>
    cases cs with
    | nil =>
      obtain ⟨rfl, hf⟩ := safeRun_of_run_self (run_idle _) h
      exact ⟨hf, e, [], [], by simp, by simp⟩
    | cons c cs =>
      obtain ⟨e₁, r, hstep, hans⟩ := step_command_answer e c (cs.map .command) rs
      rw [List.map_cons, safeRun_succ hstep] at h
      obtain ⟨hf₁, e', cs', new, rfl, hnew⟩ := ih h
      obtain ⟨hf, hr⟩ := hans.live hf₁
      exact ⟨hf, e', cs', r :: new, by simp, List.forall_mem_cons.2 ⟨hr, hnew⟩⟩

end

/-! ## The obligations -/

/-- Settles O14, by a simulation: engines that agree before the first INIT stay indistinguishable over any run. -/
theorem resetValuesAreUnobservable : Obligations.ResetValuesAreUnobservable := by
  unfold Obligations.ResetValuesAreUnobservable
  intro w e f evs rs n hv hv' hf hk
  have hagree : e.Indistinguishable f := .inr ⟨hv, hv', hf, hk⟩
  obtain ⟨e', f', evs', rs', hleft, hright, h'⟩ := hagree.run n evs rs
  exact ⟨e', f', evs', rs', hleft, hright, h'.status_eq, h'.eq_of_valid⟩

/-- Settles O13, by what a fault-free engine without an accumulator does with each word. -/
theorem afterResetRule : Obligations.AfterResetRule := by
  unfold Obligations.AfterResetRule
  exact fun w e c rest rs hv hf _ =>
    ⟨step_init_live hf, step_oneshot_live hf, step_rdstatus, step_noInit hf hv, step_illegal hf⟩

/-- Settles O28, by induction over the steps: an answer that leaves no fault is DONE or VALUE. -/
theorem safeRunsAnswerDoneOrValue : Obligations.SafeRunsAnswerDoneOrValue := by
  unfold Obligations.SafeRunsAnswerDoneOrValue
  exact fun w e cs rs n t => safeRun_commands

/-- Settles O8, by what a step does with each kind of event. -/
theorem everyStepAnswersTheSameInstance : Obligations.EveryStepAnswersTheSameInstance := by
  unfold Obligations.EveryStepAnswersTheSameInstance
  rintro ⟨w, e, ⟨evs, rs⟩⟩
  obtain ⟨e', evs', rs', hstep⟩ := step_answers_instOf e evs rs
  exact ⟨_, hstep, rfl⟩

/-- Settles O11: both reset events leave the reset engine, whatever the engine held. -/
theorem resetPutsTheEngineInItsResetState : Obligations.ResetPutsTheEngineInItsResetState := by
  unfold Obligations.ResetPutsTheEngineInItsResetState
  exact fun w e c rest rs => ⟨step_reset rest rs, step_resetDuring c rest rs, rfl, rfl, rfl⟩

/-- Settles O12: the fields by the reset state of either build, STATUS by evaluation. -/
theorem resetStatus : Obligations.ResetStatus := by
  unfold Obligations.ResetStatus
  exact ⟨fun w => ⟨rfl, rfl, rfl, rfl⟩, by decide, by decide, rfl⟩

end Sys2Proof.Machine
end
